-- ==== Sys2Proof/Word.lean ====
section
/-! DEFINITION. The word types of the INA219-RCM block and the record of its five configuration fields
(00_scope.md R20, R21; 10_state.md R28, R33). -/

namespace Sys2Proof

/-- One byte on the two-wire bus (R20: the register address on the wire is 8 bits). -/
abbrev Byte := BitVec 8

/-- One 16-bit register word (R20). -/
abbrev Word := BitVec 16

/-- The 32-bit command word `CW` (R70). -/
abbrev CommandWord := BitVec 32

/-- A real value as the 64 bits of its binary64 pattern (R56, R68). -/
abbrev RealBits := BitVec 64

/-- The 7-bit device address (R7). -/
abbrev DeviceAddress := BitVec 7

/-- The five configuration fields, in the widths of R28 and R33. -/
structure ConfigFields where
  /-- 0 = 16 V, 1 = 32 V (R77). -/
  range : BitVec 1
  /-- 0 = ±40 mV, 1 = ±80 mV, 2 = ±160 mV, 3 = ±320 mV (R78). -/
  gain : BitVec 2
  /-- Bus-ADC resolution or averaging code (R79). -/
  badc : BitVec 4
  /-- Shunt-ADC resolution or averaging code (R79). -/
  sadc : BitVec 4
  /-- Operating-mode code (R80). -/
  mode : BitVec 3
  deriving DecidableEq, Repr

/-- What the host drives on the command port for one command: `cmd_word` and `cmd_real` (R68). -/
structure PortWords where
  word : CommandWord
  real : RealBits
  deriving DecidableEq, Repr

end Sys2Proof
end

