-- ==== Sys2Proof/Config.lean ====
section
/-! DEFINITION. What one block instance fixes (00_scope.md R7 to R19) and the free values of the oracle
(R4, R50, R51). -/

namespace Sys2Proof

/-- The number formats `FP_FORMAT` may take (R18). -/
inductive FpFormat where
  | binary64
  | binary32
  deriving DecidableEq, Repr

/-- The parameters of R7, R17 and R18, which the spec marks as arguments of a model. Assumption log 9: State
carries them, no step writes them, and so a statement about every state holds for every instance. -/
structure Params where
  /-- `DEV_ADDR` (R7). -/
  devAddr : DeviceAddress
  /-- `POWER_DOWN_CODE`, in 0 to 6 (R17: "it may not be 7"). -/
  powerDownIndex : Fin 7
  /-- `FP_FORMAT` (R18). -/
  fpFormat : FpFormat
  deriving DecidableEq, Repr

/-- `POWER_DOWN_CODE` as a mode code (R17, R80). -/
def Params.powerDownCode (p : Params) : BitVec 3 := BitVec.ofNat 3 p.powerDownIndex.val

/-- This hardware's parameters: address 0x40 (R7), power-down code 0 (R17; PRESUMED by the spec itself, log 10)
and binary64 (R18, D4). -/
def Params.thisBlock : Params := { devAddr := 0x40#7, powerDownIndex := 0, fpFormat := .binary64 }

/-- The three outcomes of a `BusWrite` (R50). -/
inductive WriteOutcome where
  /-- `ACK`: the primitive returns. -/
  | ack
  /-- `ERR`: it raises `TransportError`. -/
  | err
  /-- No answer: it never returns. -/
  | noAnswer
  deriving DecidableEq, Repr, Inhabited

/-- The three outcomes of a `BusRead(2)` (R51). -/
inductive ReadOutcome where
  /-- `DATA(b0, b1)`, any two bytes, `b0` first on the wire. -/
  | data (b0 b1 : Byte)
  /-- `ERR`: it raises `TransportError`. -/
  | err
  /-- No answer: it never returns. -/
  | noAnswer
  deriving DecidableEq, Repr, Inhabited

/-- FREE VALUE (log 1): the outcome of a bus write for which State queues no oracle input. R4: "every bus
transaction's outcome, and every byte a read returns, is a free input of the block's step". -/
opaque Config.freeWriteOutcome : Nat → WriteOutcome

/-- FREE VALUE (log 1): the outcome of a bus read for which State queues no oracle input (R4). -/
opaque Config.freeReadOutcome : Nat → ReadOutcome

/-- `DEFAULT_CONFIG` (R14). -/
def Config.defaultConfig : Word := 0x399F#16

/-- `RESET_SENTINEL` (R15). -/
def Config.resetSentinel : Word := 0x8000#16

/-- `RESET_MODE` (R16). -/
def Config.resetMode : BitVec 3 := 7#3

end Sys2Proof
end

