-- ==== Sys2Proof/Machine/Operands.lean ====
section
/-! DEFINITION. Operand forms: the config bitfield multiplexer, the legal code sets, the register-address
decoder, and the reinterpretation of device words (30_encoding.md R74 to R86). -/

namespace Sys2Proof.Machine

/-- `Pack` (R75): each field's code shifted to its position, joined by bitwise or. -/
def pack (f : ConfigFields) : Word :=
  (f.range.setWidth 16 <<< 13) ||| (f.gain.setWidth 16 <<< 11) ||| (f.badc.setWidth 16 <<< 7) |||
    (f.sadc.setWidth 16 <<< 3) ||| f.mode.setWidth 16

/-- `Unpack` (R76): bits 13, 12:11, 10:7, 6:3 and 2:0; bits 15 and 14 are ignored. -/
def unpack (w : Word) : ConfigFields :=
  { range := w.extractLsb' 13 1
    gain := w.extractLsb' 11 2
    badc := w.extractLsb' 7 4
    sadc := w.extractLsb' 3 4
    mode := w.extractLsb' 0 3 }

/-- Membership in `ADC_CODES` = 0 to 3 and 8 to 15 (R79): the codes 4 to 7 are not legal. -/
def adcLegal (c : BitVec 4) : Bool := decide (c.toNat < 4 ∨ 8 ≤ c.toNat)

/-- The six device registers (10_state.md R30). -/
inductive DeviceReg where
  | config
  | shuntVoltage
  | busVoltage
  | power
  | current
  | calibration
  deriving DecidableEq, Repr

/-- The access rights of R30: "Config and Calibration are read-write; the rest are read-only". -/
inductive Access where
  | readWrite
  | readOnly
  deriving DecidableEq, Repr

/-- The word formats `RegDecode` names (R86). -/
inductive WordFormat where
  | config
  | signed
  | bus
  | unsigned
  deriving DecidableEq, Repr

/-- `RegDecode` (R86); `none` is its `raise InvalidRegisterAddress(a)`. -/
def regDecode (a : Byte) : Option (DeviceReg × Access × WordFormat) :=
  match a.toNat with
  | 0x00 => some (.config, .readWrite, .config)
  | 0x01 => some (.shuntVoltage, .readOnly, .signed)
  | 0x02 => some (.busVoltage, .readOnly, .bus)
  | 0x03 => some (.power, .readOnly, .unsigned)
  | 0x04 => some (.current, .readOnly, .signed)
  | 0x05 => some (.calibration, .readWrite, .unsigned)
  | _ => none

/-- The fixed address of a device register (R30, R47). -/
def DeviceReg.address : DeviceReg → Byte
  | .config => 0x00#8
  | .shuntVoltage => 0x01#8
  | .busVoltage => 0x02#8
  | .power => 0x03#8
  | .current => 0x04#8
  | .calibration => 0x05#8

/-- The registers whose words depend on the loaded calibration value: Power and Current (R91, R118). -/
def DeviceReg.needsCalibration : DeviceReg → Bool
  | .power | .current => true
  | .config | .shuntVoltage | .busVoltage | .calibration => false

/-- `sext_16` (R22, R81): a 16-bit word read as two's complement. -/
def sext16 (w : Word) : Int := w.toInt

/-- `zext` (R22, R82): a word read unsigned. -/
def zext16 (w : Word) : Int := (w.toNat : Int)

/-- The value field of the Bus Voltage word, `w >> 3`, 13 bits wide (R83, 90_conflicts.md C1). -/
def busValue (w : Word) : BitVec 13 := w.extractLsb' 3 13

/-- The two bytes of a word as they go on the wire, high byte first (R54, R55). -/
def highByte (v : Word) : Byte := v.extractLsb' 8 8

/-- Bits 7 to 0 of a word (R54, R55). -/
def lowByte (v : Word) : Byte := v.extractLsb' 0 8

/-- The word of a 2-byte read: `(b0 << 8) | b1` (R53, R55). -/
def wordOfBytes (b0 b1 : Byte) : Word := b0 ++ b1

/-- The bytes of a 16-bit register write: address, high byte, low byte (R54). -/
def writeBytes (a : Byte) (v : Word) : List Byte := [a, highByte v, lowByte v]

end Sys2Proof.Machine
end

