-- ==== Sys2Proof/Syntax.lean ====
section
/-! DEFINITION. The ten commands of spec/opcode_table.json (30_encoding.md R70, R71, R73). -/

namespace Sys2Proof

/-- One constructor per row of the opcode table; the arguments are the row's operands (R71, R73). -/
inductive Instr where
  /-- INIT (R94). -/
  | init
  /-- READ_REG: register address `A` (R91). -/
  | readReg (a : Byte)
  /-- WRITE_REG: register address `A` and value `D` (R92). -/
  | writeReg (a : Byte) (v : Word)
  /-- APPLY_CONFIG: the five fields of the config word `D[13:0]` (R95). -/
  | applyConfig (f : ConfigFields)
  /-- RESET_DEVICE (R96). -/
  | resetDevice
  /-- SET_MODE: the mode code `D[2:0]` (R97). -/
  | setMode (m : BitVec 3)
  /-- STANDBY (R98). -/
  | standby
  /-- RESUME (R99). -/
  | resume
  /-- CALIBRATE: the real operand `CR`, binary64 bits (R102, R73). -/
  | calibrate (cr : RealBits)
  /-- MEASURE (R107). -/
  | measure
  deriving DecidableEq, Repr

end Sys2Proof
end

