-- ==== Sys2Proof/WellFormed.lean ====
section
/-! DEFINITION. Well-formed commands: those whose operand passes the command's own operand check. Every operand
of an Instr fits its field by its type, so every Instr has an encoding; what is left to check are the field values
that "decode but are refused later" (30_encoding.md R87). Assumption log 20. -/

namespace Sys2Proof

/-- The operand check of each command: a readable address (R86, R91), a writable address (R86, R92), legal ADC codes
(R79, R95). A command that fails it still decodes and still runs: it completes with code 6, 7 or 2. -/
def Instr.wellFormed : Instr → Bool
  | .readReg a => (Machine.regDecode a).isSome
  | .writeReg a _ => decide ((Machine.regDecode a).map (fun r => r.2.1) = some .readWrite)
  | .applyConfig f => Machine.adcLegal f.badc && Machine.adcLegal f.sadc
  | .init | .resetDevice | .setMode _ | .standby | .resume | .calibrate _ | .measure => true

end Sys2Proof
end

