-- ==== Sys2Proof/Decode.lean ====
section
/-! DEFINITION. The command decoder, total on every 32-bit word, and the encoder (30_encoding.md R70 to R73, R87,
R88). -/

namespace Sys2Proof

/-- `OP`, bits 31:28 (R70). -/
def opField (cw : CommandWord) : BitVec 4 := cw.extractLsb' 28 4

/-- `RSV`, bits 27:24 (R70). -/
def rsvField (cw : CommandWord) : BitVec 4 := cw.extractLsb' 24 4

/-- `A`, bits 23:16 (R70). -/
def aField (cw : CommandWord) : Byte := cw.extractLsb' 16 8

/-- `D`, bits 15:0 (R70). -/
def dField (cw : CommandWord) : Word := cw.extractLsb' 0 16

/-- The "must be zero" column of R71 for one opcode, as a check on the fields `RSV`, `A` and `D`. An unassigned
opcode (0x0 and 0xB to 0xF) has no row: its words are all illegal. -/
def mustBeZeroOk (op : BitVec 4) (rsv : BitVec 4) (a : Byte) (d : Word) : Bool :=
  match op.toNat with
  | 0x1 | 0x5 | 0x7 | 0x8 | 0x9 | 0xA => rsv == 0#4 && a == 0#8 && d == 0#16
  | 0x2 => rsv == 0#4 && d == 0#16
  | 0x3 => rsv == 0#4
  | 0x4 => rsv == 0#4 && a == 0#8 && d.extractLsb' 14 2 == 0#2
  | 0x6 => rsv == 0#4 && a == 0#8 && d.extractLsb' 3 13 == 0#13
  | _ => false

/-- The operands of each assigned opcode, assembled as in R73 (the columns "mnemonic" and "operands" of R71). -/
def operandsOf (op : BitVec 4) (a : Byte) (d : Word) (cr : RealBits) : Option Instr :=
  match op.toNat with
  | 0x1 => some .init
  | 0x2 => some (.readReg a)
  | 0x3 => some (.writeReg a d)
  | 0x4 => some (.applyConfig (Machine.unpack d))
  | 0x5 => some .resetDevice
  | 0x6 => some (.setMode (d.extractLsb' 0 3))
  | 0x7 => some .standby
  | 0x8 => some .resume
  | 0x9 => some (.calibrate cr)
  | 0xA => some .measure
  | _ => none

/-- Decoding (R72): total on every word; `none` is `IllegalCommand`. The real operand is not decoded: only CALIBRATE
carries it along. -/
def decode (cw : CommandWord) (cr : RealBits) : Option Instr :=
  if mustBeZeroOk (opField cw) (rsvField cw) (aField cw) (dField cw) then
    operandsOf (opField cw) (aField cw) (dField cw) cr
  else none

/-- One row of the opcode table (spec/opcode_table.json): `(CW & mask) = match` (R72). -/
structure OpcodeRow where
  mnemonic : String
  pattern : CommandWord
  mask : CommandWord
  deriving DecidableEq, Repr

/-- The ten rows of spec/opcode_table.json. -/
def opcodeRows : List OpcodeRow :=
  [ ⟨"INIT", 0x10000000#32, 0xFFFFFFFF#32⟩,
    ⟨"READ_REG", 0x20000000#32, 0xFF00FFFF#32⟩,
    ⟨"WRITE_REG", 0x30000000#32, 0xFF000000#32⟩,
    ⟨"APPLY_CONFIG", 0x40000000#32, 0xFFFFC000#32⟩,
    ⟨"RESET_DEVICE", 0x50000000#32, 0xFFFFFFFF#32⟩,
    ⟨"SET_MODE", 0x60000000#32, 0xFFFFFFF8#32⟩,
    ⟨"STANDBY", 0x70000000#32, 0xFFFFFFFF#32⟩,
    ⟨"RESUME", 0x80000000#32, 0xFFFFFFFF#32⟩,
    ⟨"CALIBRATE", 0x90000000#32, 0xFFFFFFFF#32⟩,
    ⟨"MEASURE", 0xA0000000#32, 0xFFFFFFFF#32⟩ ]

/-- The mnemonic of a command, letter for letter as the table has it (R71). -/
def Instr.mnemonic : Instr → String
  | .init => "INIT"
  | .readReg _ => "READ_REG"
  | .writeReg _ _ => "WRITE_REG"
  | .applyConfig _ => "APPLY_CONFIG"
  | .resetDevice => "RESET_DEVICE"
  | .setMode _ => "SET_MODE"
  | .standby => "STANDBY"
  | .resume => "RESUME"
  | .calibrate _ => "CALIBRATE"
  | .measure => "MEASURE"

/-- Joins the four fields of R70 into a command word. -/
def commandWord (op : BitVec 4) (a : Byte) (d : Word) : CommandWord := op ++ 0#4 ++ a ++ d

/-- The opcode of each command (R71). -/
def Instr.opcode : Instr → BitVec 4
  | .init => 0x1#4
  | .readReg _ => 0x2#4
  | .writeReg _ _ => 0x3#4
  | .applyConfig _ => 0x4#4
  | .resetDevice => 0x5#4
  | .setMode _ => 0x6#4
  | .standby => 0x7#4
  | .resume => 0x8#4
  | .calibrate _ => 0x9#4
  | .measure => 0xA#4

/-- The words of a command (R71, R73, R89). `cmd_real` is written 0 where it is ignored (R89). -/
def encode : Instr → PortWords
  | .readReg a => ⟨commandWord 0x2#4 a 0#16, 0#64⟩
  | .writeReg a v => ⟨commandWord 0x3#4 a v, 0#64⟩
  | .applyConfig f => ⟨commandWord 0x4#4 0#8 (Machine.pack f), 0#64⟩
  | .setMode m => ⟨commandWord 0x6#4 0#8 (m.setWidth 16), 0#64⟩
  | .calibrate cr => ⟨commandWord 0x9#4 0#8 0#16, cr⟩
  | .init => ⟨commandWord 0x1#4 0#8 0#16, 0#64⟩
  | .resetDevice => ⟨commandWord 0x5#4 0#8 0#16, 0#64⟩
  | .standby => ⟨commandWord 0x7#4 0#8 0#16, 0#64⟩
  | .resume => ⟨commandWord 0x8#4 0#8 0#16, 0#64⟩
  | .measure => ⟨commandWord 0xA#4 0#8 0#16, 0#64⟩

/-- The port words of an instruction given as one number with bit 0 the least significant bit of the command word:
`cmd_word` is bits 31:0 and `cmd_real` bits 95:32 (log 20). Bits at and above `nbits` are 0. -/
def portWordsOfTable (nbits w : Nat) : PortWords :=
  let v := w % 2 ^ nbits
  ⟨BitVec.ofNat 32 v, BitVec.ofNat 64 (v / 2 ^ 32)⟩

/-- The instruction this decoder reads from a table-numbered word. -/
def decodeTableWord (nbits w : Nat) : Option Instr :=
  decode (portWordsOfTable nbits w).word (portWordsOfTable nbits w).real

end Sys2Proof
end

