-- ==== Sys2Proof/Machine/Fp.lean ====
section
/-! DEFINITION. The arithmetic of `FP_FORMAT` (00_scope.md R18, R22, R23): IEEE 754, round to nearest with ties to even, one
rounding per operation. The standard's content is PRESUMED by the spec itself (G5; log 12).

Every finite value of either format is a whole number of units of 2^-1074, the smallest positive binary64 value. An
operation is computed exactly in that unit, as a quotient of two natural numbers, and rounded once. -/

namespace Sys2Proof.Machine

/-- A value of `FP_FORMAT`. A finite value is `units` times 2^-1074, negated when `neg`. -/
inductive FpValue where
  | nan
  | inf (neg : Bool)
  | finite (neg : Bool) (units : Nat)
  deriving DecidableEq, Repr

/-- The number of units in 1.0. -/
def fpOne : Nat := 2 ^ 1074

/-- The value of a binary64 pattern (R56: bit 63 is the sign bit). -/
def fpOfBits (b : RealBits) : FpValue :=
  let neg := b.msb
  let expo := b.toNat / 2 ^ 52 % 2048
  let frac := b.toNat % 2 ^ 52
  if expo = 2047 then (if frac = 0 then .inf neg else .nan)
  else if expo = 0 then .finite neg frac
  else .finite neg ((2 ^ 52 + frac) * 2 ^ (expo - 1))

/-- The exponent and fraction fields of a finite binary64 value given in units; exact when it has at most 53
significant bits. -/
def fpMagnitudeBits (units : Nat) : Nat :=
  if units < 2 ^ 52 then units
  else
    let shift := Nat.log2 units - 52
    shift * 2 ^ 52 + units / 2 ^ shift

/-- The binary64 pattern of a value. Values of binary32 are values of binary64 too (log 11). -/
def fpToBits : FpValue → RealBits
  | .nan => 0x7FF8000000000000#64
  | .inf neg => BitVec.ofNat 64 ((if neg then 2 ^ 63 else 0) + 2047 * 2 ^ 52)
  | .finite neg units => BitVec.ofNat 64 ((if neg then 2 ^ 63 else 0) + fpMagnitudeBits units)

/-- Significant bits of the format: 53 or 24. -/
def fpPrecision : FpFormat → Nat
  | .binary64 => 53
  | .binary32 => 24

/-- Units in the smallest positive value, as a power of two: 2^-1074 is 2^0 units, 2^-149 is 2^925 units. -/
def fpMinShift : FpFormat → Nat
  | .binary64 => 0
  | .binary32 => 925

/-- A rounded magnitude of at least 2^1024 (or 2^128) is an infinity; in units, 2 to this power. -/
def fpOverflowShift : FpFormat → Nat
  | .binary64 => 2098
  | .binary32 => 1202

/-- The nearest whole number to num / den, ties to even. -/
def roundQuotient (num den : Nat) : Nat :=
  let m := num / den
  let twice := 2 * (num % den)
  if twice < den then m
  else if den < twice then m + 1
  else m + m % 2

/-- The shift that leaves at most `fpPrecision` significant bits of num / den units, and not less than the format's
smallest unit. -/
def roundShift (fmt : FpFormat) (num den : Nat) : Nat :=
  max (fpMinShift fmt) (Nat.log2 (num / den) + 1 - fpPrecision fmt)

/-- The magnitude num / den units rounded to the format with its exponent range unbounded above. -/
def roundUnits (fmt : FpFormat) (num den : Nat) : Nat :=
  let shift := roundShift fmt num den
  roundQuotient num (den * 2 ^ shift) * 2 ^ shift

/-- The correctly rounded value of ±num / den units (R18, R23). -/
def fpRound (fmt : FpFormat) (neg : Bool) (num den : Nat) : FpValue :=
  if roundUnits fmt num den < 2 ^ fpOverflowShift fmt then .finite neg (roundUnits fmt num den) else .inf neg

/-- The signed number of units, for sums and comparisons. -/
def signedUnits (neg : Bool) (units : Nat) : Int := if neg then -(units : Int) else units

/-- The sum of two values, rounded once. An exact zero sum is negative only when both operands are. -/
def addValue (fmt : FpFormat) : FpValue → FpValue → FpValue
  | .nan, _ => .nan
  | _, .nan => .nan
  | .inf s, .inf t => if s = t then .inf s else .nan
  | .inf s, .finite _ _ => .inf s
  | .finite _ _, .inf t => .inf t
  | .finite s x, .finite t y =>
    let sum := signedUnits s x + signedUnits t y
    if sum = 0 then .finite (s && t) 0 else fpRound fmt (decide (sum < 0)) sum.natAbs 1

/-- The product of two values, rounded once. -/
def mulValue (fmt : FpFormat) : FpValue → FpValue → FpValue
  | .nan, _ => .nan
  | _, .nan => .nan
  | .inf s, .inf t => .inf (s != t)
  | .inf s, .finite t y => if y = 0 then .nan else .inf (s != t)
  | .finite s x, .inf t => if x = 0 then .nan else .inf (s != t)
  | .finite s x, .finite t y => fpRound fmt (s != t) (x * y) fpOne

/-- The quotient of two values, rounded once; a positive value over 0.0 is +infinity (R23). -/
def divValue (fmt : FpFormat) : FpValue → FpValue → FpValue
  | .nan, _ => .nan
  | _, .nan => .nan
  | .inf _, .inf _ => .nan
  | .inf s, .finite t _ => .inf (s != t)
  | .finite s _, .inf t => .finite (s != t) 0
  | .finite s x, .finite t y =>
    if y = 0 then (if x = 0 then .nan else .inf (s != t)) else fpRound fmt (s != t) (x * fpOne) y

/-- The comparison a ≤ b of two values; false when one is a NaN. -/
def leValue : FpValue → FpValue → Bool
  | .nan, _ => false
  | _, .nan => false
  | .inf true, _ => true
  | .inf false, .inf t => !t
  | .inf false, .finite _ _ => false
  | .finite _ _, .inf t => !t
  | .finite s x, .finite t y => decide (signedUnits s x ≤ signedUnits t y)

/-- `fadd` (R23). No rule of the spec uses it. -/
def fadd (fmt : FpFormat) (a b : RealBits) : RealBits := fpToBits (addValue fmt (fpOfBits a) (fpOfBits b))

/-- `fmul` (R23). -/
def fmul (fmt : FpFormat) (a b : RealBits) : RealBits := fpToBits (mulValue fmt (fpOfBits a) (fpOfBits b))

/-- `fdiv` (R23). -/
def fdiv (fmt : FpFormat) (a b : RealBits) : RealBits := fpToBits (divValue fmt (fpOfBits a) (fpOfBits b))

/-- The comparison a ≤ b on patterns. -/
def fle (a b : RealBits) : Bool := leValue (fpOfBits a) (fpOfBits b)

/-- `fmin` (R23): a when a ≤ b, else b. -/
def fmin (a b : RealBits) : RealBits := if fle a b then a else b

/-- `to_fp` (R23): an integer as a value of the format. -/
def toFp (fmt : FpFormat) (n : Int) : RealBits := fpToBits (fpRound fmt (decide (n < 0)) (n.natAbs * fpOne) 1)

/-- `finite` (R23). -/
def isFinite (a : RealBits) : Bool :=
  match fpOfBits a with
  | .finite _ _ => true
  | .nan => false
  | .inf _ => false

/-- The comparison a > 0.0 (R102). -/
def isPositive (a : RealBits) : Bool :=
  match fpOfBits a with
  | .finite neg units => !neg && decide (0 < units)
  | .inf neg => !neg
  | .nan => false

/-- `trunc` (R22): the integer part toward zero of a finite value. The value of an infinity or a NaN is not used by any
rule; it is 0 here. -/
def truncFp (a : RealBits) : Int :=
  match fpOfBits a with
  | .finite neg units => signedUnits neg (units / fpOne)
  | .inf _ => 0
  | .nan => 0

/-- A binary64 value rounded to the format, `fl(I)` of R73: unchanged when the format is binary64. -/
def flBits (fmt : FpFormat) (a : RealBits) : RealBits :=
  match fmt with
  | .binary64 => a
  | .binary32 =>
    match fpOfBits a with
    | .finite neg units => fpToBits (fpRound .binary32 neg units 1)
    | .inf _ => a
    | .nan => a

/-- `fl(literal)` (R23): the format value nearest the decimal literal num / den (log 13). -/
def flDecimal (fmt : FpFormat) (num den : Nat) : RealBits := fpToBits (fpRound fmt false (num * fpOne) den)

/-- `SHUNT_R` = fl(0.1) (R8). -/
def shuntR (fmt : FpFormat) : RealBits := flDecimal fmt 1 10

/-- `CAL_CONST` = fl(0.04096) (R9). -/
def calConst (fmt : FpFormat) : RealBits := flDecimal fmt 4096 100000

/-- `CURRENT_DIV` = 32768.0 (R10). -/
def currentDiv (fmt : FpFormat) : RealBits := flDecimal fmt 32768 1

/-- `POWER_RATIO` = 20.0 (R11). -/
def powerRatio (fmt : FpFormat) : RealBits := flDecimal fmt 20 1

/-- `SHUNT_LSB_V` = fl(0.00001) (R19). -/
def shuntLsbV (fmt : FpFormat) : RealBits := flDecimal fmt 1 100000

/-- `BUS_LSB_V` = fl(0.004) (R19). -/
def busLsbV (fmt : FpFormat) : RealBits := flDecimal fmt 4 1000

/-- `VBUS_MAX(range)` (R12, R101). -/
def vBusMax (fmt : FpFormat) (range : BitVec 1) : RealBits :=
  if range = 0#1 then flDecimal fmt 16 1 else flDecimal fmt 32 1

/-- `VSHUNT_MAX(gain)` (R13, R101); the last case, "40.0 otherwise", is never reached (U8). -/
def vShuntMax (fmt : FpFormat) (gain : BitVec 2) : RealBits :=
  if gain = 0#2 then flDecimal fmt 40 1
  else if gain = 1#2 then flDecimal fmt 80 1
  else if gain = 2#2 then flDecimal fmt 160 1
  else if gain = 3#2 then flDecimal fmt 320 1
  else flDecimal fmt 40 1

end Sys2Proof.Machine
end

