-- ==== Sys2Proof/Machine/State.lean ====
section
/-! DEFINITION. The state of the block (10_state.md R27 to R42; 20_memory.md R52; 30_encoding.md R68, R69), the reasons a step can
stop, and the state right after reset (70_reset_and_hazards.md R134). -/

namespace Sys2Proof.Machine

/-- The eight FP calibration-result registers (R36). CALIBRATE writes them together, and INIT empties them together
(R94, R102), so they are held together or not at all (log 14). -/
structure CalResult where
  currentLsb : RealBits
  powerLsb : RealBits
  maxPossibleCurrent : RealBits
  maxCurrent : RealBits
  maxCurrentBeforeOverflow : RealBits
  maxShuntVoltage : RealBits
  maxShuntVoltageBeforeOverflow : RealBits
  maxPower : RealBits
  deriving DecidableEq, Repr, Inhabited

/-- The measurement snapshot (R37), which MEASURE writes in one step (R65, R107). -/
structure Snapshot where
  rawShunt : Word
  rawBus : Word
  rawCurrent : Word
  rawPower : Word
  busValue : BitVec 13
  ovf : Bool
  cnvr : Bool
  shuntV : RealBits
  busV : RealBits
  current : RealBits
  power : RealBits
  deriving DecidableEq, Repr, Inhabited

/-- The registers of R28 but BUSY. `CAL_VALID`, `SNAP_VALID` and `RDATA_VALID` are the presence of `cal`, `snap` and
`rdata` (log 14). -/
structure Regs where
  /-- `CFG` (R33). -/
  cfg : ConfigFields
  /-- `SAVED_MODE` (R35). -/
  savedMode : BitVec 3
  /-- `CAL_VALUE` (R36). -/
  calValue : Word
  /-- The FP calibration results, none until CALIBRATE writes them (R28, R36). -/
  cal : Option CalResult
  /-- The snapshot registers, none until MEASURE writes them (R28, R37). -/
  snap : Option Snapshot
  /-- `RDATA`, none until READ_REG writes it (R28, R39). -/
  rdata : Option Word
  /-- `STATUS` (R41). -/
  status : BitVec 4
  /-- `ERR_STICKY` (R42); every write of it keeps bit 0 at 0 (log 18). -/
  errSticky : BitVec 9
  deriving DecidableEq, Repr

/-- `CAL_VALID` (R36). -/
def Regs.calValid (r : Regs) : Bool := r.cal.isSome

/-- `SNAP_VALID` (R37). -/
def Regs.snapValid (r : Regs) : Bool := r.snap.isSome

/-- `RDATA_VALID` (R39). -/
def Regs.rdataValid (r : Regs) : Bool := r.rdata.isSome

/-- One event on the bus-master port, with its outcome (R49 to R52). An event whose outcome is `noAnswer` is still
pending (log 22). -/
inductive BusEvent where
  /-- `BEGIN` (R49). -/
  | begin
  /-- `WR(device, bytes)` (R50). -/
  | wr (device : DeviceAddress) (bytes : List Byte) (outcome : WriteOutcome)
  /-- `RD(device, 2)` (R51). -/
  | rd (device : DeviceAddress) (outcome : ReadOutcome)
  deriving DecidableEq, Repr

/-- Which ADC field an `InvalidConfigurationValue` names (R95). -/
inductive AdcField where
  | badc
  | sadc
  deriving DecidableEq, Repr

/-- What a `StaleCalibration` names: a READ_REG address or MEASURE (R91, R107). -/
inductive StaleCause where
  | register (a : Byte)
  | measure
  deriving DecidableEq, Repr

/-- The eight errors of R115 with the `info` of their `raise` (R112: the info is not block state). An error ends its
command; it does not stop the machine. -/
inductive CommandError where
  | transportError
  | invalidConfigurationValue (field : AdcField) (code : BitVec 4)
  | staleCalibration (cause : StaleCause)
  | invalidCurrentInput (i : RealBits)
  | calibrationRange (q : RealBits)
  | invalidRegisterAddress (a : Byte)
  | registerNotWritable (a : Byte)
  | illegalCommand (cw : CommandWord)
  deriving DecidableEq, Repr

/-- Why the machine stops. -/
inductive Fault where
  /-- Raised by `step` when a command's bus primitive was never answered, BUSY is still 1 and `rst` is not asserted
  (R125: "A model gives the stuck block no step"). Safe: the hardware is stuck as well. -/
  | transportNeverAnswered
  deriving DecidableEq, Repr

/-- Why a request is refused. -/
inductive Refusal where
  /-- Raised by no arm: every instruction of the table has its meaning. Safe. -/
  | notModelled (mnemonic : String)
  deriving DecidableEq, Repr

/-- The state of the block, its input ports and the oracle's next answers, as plain data. -/
structure State where
  /-- The registers of R28. -/
  regs : Regs
  /-- `BUSY` (R40). -/
  busy : Bool
  /-- The automatic INIT of R135 has still to run (log 3). -/
  autoInit : Bool
  /-- `CW`, the latched command word (R24, R69). -/
  cw : CommandWord
  /-- `CR`, the latched real operand (R24, R69). -/
  cr : RealBits
  /-- The `done` event of the step that led here (R68, R110; log 6). -/
  done : Bool
  /-- What the output ports show: the registers as of the last completed command or reset (R26, R144, D36). -/
  ports : Regs
  /-- The bus trace since the last hardware reset, oldest first (R52). -/
  trace : List BusEvent
  /-- Input port `rst` (R68, R134; log 5). -/
  rst : Bool
  /-- The host's offers: the first is on the command port, `cmd_valid` is 1 while there is one (R68, R69; log 4). -/
  offers : List PortWords
  /-- The oracle's next write outcomes, oldest first (R50; log 1). -/
  writeAnswers : List WriteOutcome
  /-- The oracle's next read outcomes, oldest first (R51; log 1). -/
  readAnswers : List ReadOutcome
  /-- The MODEL's counter of free outcomes drawn (log 1). -/
  freeDraws : Nat
  /-- The instance's fixed parameters (R7, R17, R18; log 9). -/
  params : Params
  deriving DecidableEq, Repr

/-- The register values at reset (R33 to R42; the table of R136). -/
def Regs.reset : Regs :=
  { cfg := { range := 1#1, gain := 3#2, badc := 3#4, sadc := 3#4, mode := 7#3 }
    savedMode := 7#3
    calValue := 0x0000#16
    cal := none
    snap := none
    rdata := none
    status := 0#4
    errSticky := 0#9 }

/-- The machine right after reset, `rst` released (R134): registers at their reset values, BUSY at 1, the trace empty,
the automatic INIT of R135 about to run. `CW` and `CR` have no value in the spec (log 7). Nothing is offered and no oracle
input is queued. -/
def State.reset : State :=
  { regs := Regs.reset
    busy := true
    autoInit := true
    cw := 0#32
    cr := 0#64
    done := false
    ports := Regs.reset
    trace := []
    rst := false
    offers := []
    writeAnswers := []
    readAnswers := []
    freeDraws := 0
    params := Params.thisBlock }

end Sys2Proof.Machine
end

