-- ==== Sys2Proof/Machine/Flags.lean ====
section
/-! DEFINITION. Status flags and codes: the two device flags (10_state.md R38, 30_encoding.md R83), the completion codes (60_exceptions.md R115) and the
sticky record (10_state.md R42). -/

namespace Sys2Proof.Machine

/-- `OVF`: bit 0 of the Bus Voltage word (R38, R83). -/
def ovfFlag (w : Word) : Bool := w.getLsbD 0

/-- `CNVR`: bit 1 of the Bus Voltage word (R38, R83). -/
def cnvrFlag (w : Word) : Bool := w.getLsbD 1

/-- The three parts `BusDecode` gives (R83). -/
structure BusFields where
  value : BitVec 13
  cnvr : Bool
  ovf : Bool
  deriving DecidableEq, Repr

/-- `BusDecode` (R83); bit 2 is ignored. -/
def busDecode (w : Word) : BusFields := { value := busValue w, cnvr := cnvrFlag w, ovf := ovfFlag w }

/-- The completion code of each error (R115). -/
def CommandError.code : CommandError → BitVec 4
  | .transportError => 1#4
  | .invalidConfigurationValue _ _ => 2#4
  | .staleCalibration _ => 3#4
  | .invalidCurrentInput _ => 4#4
  | .calibrationRange _ => 5#4
  | .invalidRegisterAddress _ => 6#4
  | .registerNotWritable _ => 7#4
  | .illegalCommand _ => 8#4

/-- `ERR_STICKY[code] <- 1` (R42, R110). Bit 0 is hard-wired to 0, so every write leaves it 0. -/
def setSticky (sticky : BitVec 9) (code : BitVec 4) : BitVec 9 :=
  (sticky ||| (1#9 <<< code.toNat)) &&& 0x1FE#9

end Sys2Proof.Machine
end

