-- ==== Sys2Proof/Machine/Ops.lean ====
section
/-! DEFINITION. The shared operations: how a command body ends, the bus primitives (00_scope.md R25; 20_memory.md R49 to R54), the
command frame with the taking of an error (60_exceptions.md R110 to R113), acceptance (30_encoding.md R69) and the hardware reset
(70_reset_and_hazards.md R134, R135). -/

namespace Sys2Proof.Machine

/-- How a command body, or a part of one, ends: it returns a value, it executes `raise E` (R25, R110), or a bus primitive
in it never returns (R125). The state is the one reached, with the writes and events made so far (R111). -/
inductive Run (α : Type) where
  | returned (a : α) (s : State)
  | raised (e : CommandError) (s : State)
  | hung (s : State)
  deriving DecidableEq, Repr

/-- The next line of a body (R26): it runs only when the line before it returned (R111: "No later line runs"). -/
def Run.andThen {α β : Type} (r : Run α) (next : α → State → Run β) : Run β :=
  match r with
  | .returned a s => next a s
  | .raised e s => .raised e s
  | .hung s => .hung s

/-- A write of block registers, `X <- v` (R24). -/
def State.setRegs (s : State) (r : Regs) : State := { s with regs := r }

/-- Records one event in the bus trace (R52). -/
def State.recordEvent (s : State) (e : BusEvent) : State := { s with trace := s.trace ++ [e] }

/-- The oracle's outcome of the next bus write: the first queued one, or a free value (R4, R50; log 1). -/
def State.nextWriteOutcome (s : State) : WriteOutcome :=
  match s.writeAnswers with
  | o :: _ => o
  | [] => Config.freeWriteOutcome s.freeDraws

/-- The state after that outcome is drawn. -/
def State.dropWriteOutcome (s : State) : State :=
  match s.writeAnswers with
  | _ :: rest => { s with writeAnswers := rest }
  | [] => { s with freeDraws := s.freeDraws + 1 }

/-- The oracle's outcome of the next bus read: the first queued one, or a free value (R4, R51; log 1). -/
def State.nextReadOutcome (s : State) : ReadOutcome :=
  match s.readAnswers with
  | o :: _ => o
  | [] => Config.freeReadOutcome s.freeDraws

/-- The state after that outcome is drawn. -/
def State.dropReadOutcome (s : State) : State :=
  match s.readAnswers with
  | _ :: rest => { s with readAnswers := rest }
  | [] => { s with freeDraws := s.freeDraws + 1 }

/-- `BusBegin()` (R49): it always returns and records `BEGIN`. -/
def busBegin (s : State) : Run Unit := .returned () (s.recordEvent .begin)

/-- `BusWrite(bytes)` (R50): one write transaction to `DEV_ADDR`. -/
def busWrite (bytes : List Byte) (s : State) : Run Unit :=
  let t := s.dropWriteOutcome.recordEvent (.wr s.params.devAddr bytes s.nextWriteOutcome)
  match s.nextWriteOutcome with
  | .ack => .returned () t
  | .err => .raised .transportError t
  | .noAnswer => .hung t

/-- `BusRead(2)` (R51): one 2-byte read transaction from `DEV_ADDR`, its two bytes given as the word of R53. -/
def busRead (s : State) : Run Word :=
  let t := s.dropReadOutcome.recordEvent (.rd s.params.devAddr s.nextReadOutcome)
  match s.nextReadOutcome with
  | .data b0 b1 => .returned (wordOfBytes b0 b1) t
  | .err => .raised .transportError t
  | .noAnswer => .hung t

/-- `MemRead(a, 2)` (R53): the pointer write, then the 2-byte read. -/
def memRead (a : Byte) (s : State) : Run Word := (busWrite [a] s).andThen fun _ t => busRead t

/-- `MemWrite(a, 2, v)` (R54): one write of three bytes. -/
def memWrite (a : Byte) (v : Word) (s : State) : Run Unit := busWrite (writeBytes a v) s

/-- The first line of the frame, `BUSY <- 1` (R110). -/
def beginCommand (s : State) : State := { s with busy := true, done := false }

/-- `BUSY <- 0; signal done` (R110). The registers become visible on the output ports (R26, D36). -/
def signalDone (s : State) : State := { s with busy := false, done := true, ports := s.regs }

/-- Normal completion: `STATUS <- 0` (R110). -/
def completeOk (s : State) : State := signalDone (s.setRegs { s.regs with status := 0#4 })

/-- TAKING AN ERROR (R110, R112): `STATUS <- code(e)`, `ERR_STICKY[code(e)] <- 1`, and nothing else of it is recorded; no mode
changes and no vector is taken. There is no return from it (R113): the next accepted command runs normally. -/
def completeWithError (e : CommandError) (s : State) : State :=
  signalDone (s.setRegs { s.regs with status := e.code, errSticky := setSticky s.regs.errSticky e.code })

/-- The end of the frame (R110). A body that hangs never reaches it: BUSY stays 1 and `done` is not signalled (R125). -/
def finishCommand : Run Unit → State
  | .returned _ s => completeOk s
  | .raised e s => completeWithError e s
  | .hung s => s

/-- `Exec(CW, CR)` (R110): a command body in its frame. -/
def runFrame (body : State → Run Unit) (s : State) : Host.Outcome State Fault Refusal :=
  .next (finishCommand (body (beginCommand s)))

/-- The body of a word that is not a command: it raises `IllegalCommand(CW)` before any other check (R72, R123). -/
def illegalBody (s : State) : Run Unit := .raised (.illegalCommand s.cw) s

/-- Acceptance (R69): the offered words are latched into `CW` and `CR`, and BUSY becomes 1. The host's next offer moves to
the port (log 4). -/
def acceptCommand (o : PortWords) (rest : List PortWords) (s : State) : State :=
  { s with cw := o.word, cr := o.real, busy := true, done := false, offers := rest }

/-- Nothing is offered: the block waits (R137). The `done` event is over (log 6). -/
def waitForCommand (s : State) : State := { s with done := false }

/-- The start of the automatic INIT (R135): no command word is latched. -/
def startAutoInit (s : State) : State := { s with autoInit := false }

/-- Asserting and releasing `rst` (R134): every state element at its reset value, the trace cleared, a command in progress
abandoned. The input ports and the instance's parameters are not block state and stay (log 5). -/
def hardwareReset (s : State) : State :=
  { State.reset with
    offers := s.offers
    writeAnswers := s.writeAnswers
    readAnswers := s.readAnswers
    freeDraws := s.freeDraws
    params := s.params }

end Sys2Proof.Machine
end

