-- ==== Sys2Proof/Machine/Calibration.lean ====
section
/-! DEFINITION. CALIBRATE, the calibration-constant engine (42_calibration.md R101 to R103). -/

namespace Sys2Proof.Machine

/-- Steps 1 to 8 of R102 for a current I that is already a value of the format. -/
def calResult (fmt : FpFormat) (range : BitVec 1) (gain : BitVec 2) (i : RealBits) : CalResult :=
  let r := shuntR fmt
  let lsb := fdiv fmt i (currentDiv fmt)
  let mpc := fdiv fmt (vShuntMax fmt gain) r
  let mc := fmul fmt lsb (currentDiv fmt)
  let mcbo := fmin mc mpc
  let msv := fmul fmt mcbo r
  { currentLsb := lsb
    powerLsb := fmul fmt (powerRatio fmt) lsb
    maxPossibleCurrent := mpc
    maxCurrent := mc
    maxCurrentBeforeOverflow := mcbo
    maxShuntVoltage := msv
    maxShuntVoltageBeforeOverflow := fmin msv (vShuntMax fmt gain)
    maxPower := fmul fmt mcbo (vBusMax fmt range) }

/-- The quotient q of step 9 of R102, from `CURRENT_LSB`. -/
def calQuotient (fmt : FpFormat) (lsb : RealBits) : RealBits :=
  fdiv fmt (calConst fmt) (fmul fmt lsb (shuntR fmt))

/-- Whether q gives a calibration value (R102): finite, with a truncation of at most 65535. -/
def calInRange (q : RealBits) : Bool := isFinite q && decide (truncFp q ≤ 65535)

/-- The calibration value c = trunc(q) as 16 bits (R102, R103). -/
def calValueOf (q : RealBits) : Word := BitVec.ofInt 16 (truncFp q)

/-- The body of CALIBRATE (R102): the input check, steps 1 to 9 with the range check, the register writes, and step 10. -/
def bodyCalibrate (cr : RealBits) (s : State) : Run Unit :=
  let fmt := s.params.fpFormat
  let i := flBits fmt cr
  if !isFinite i || !isPositive i then .raised (.invalidCurrentInput i) s
  else
    let res := calResult fmt s.regs.cfg.range s.regs.cfg.gain i
    let q := calQuotient fmt res.currentLsb
    if !calInRange q then .raised (.calibrationRange q) s
    else memWrite 0x05#8 (calValueOf q)
      (s.setRegs { s.regs with cal := some res, calValue := calValueOf q })

/-- CALIBRATE (R102). -/
def execCalibrate (cr : RealBits) (s : State) : Host.Outcome State Fault Refusal := runFrame (bodyCalibrate cr) s

end Sys2Proof.Machine
end

