-- ==== Sys2Proof/Machine/Configuration.lean ====
section
/-! DEFINITION. INIT, APPLY_CONFIG, RESET_DEVICE, SET_MODE, STANDBY and RESUME (41_configuration.md R93 to R99). -/

namespace Sys2Proof.Machine

/-- The registers INIT writes (R94): all but `STATUS` and `ERR_STICKY`. -/
def initRegs (r : Regs) : Regs :=
  { r with
    cfg := unpack Config.defaultConfig
    savedMode := Config.resetMode
    calValue := 0x0000#16
    cal := none
    snap := none
    rdata := none }

/-- The body of INIT (R94): the state writes, `BusBegin`, and two register writes. -/
def bodyInit (s : State) : Run Unit :=
  (busBegin (s.setRegs (initRegs s.regs))).andThen fun _ t =>
  (memWrite 0x00#8 Config.defaultConfig t).andThen fun _ u =>
  memWrite 0x05#8 0x0000#16 u

/-- INIT (R94). -/
def execInit (s : State) : Host.Outcome State Fault Refusal := runFrame bodyInit s

/-- The value `SAVED_MODE` takes when the mode code m is written to `CFG.MODE` by APPLY_CONFIG or SET_MODE (R95, R97). -/
def savedModeAfter (p : Params) (saved m : BitVec 3) : BitVec 3 := if m = p.powerDownCode then saved else m

/-- Writes the packed configuration to the device's Config register. -/
def writeConfig (s : State) : Run Unit := memWrite 0x00#8 (pack s.regs.cfg) s

/-- The body of APPLY_CONFIG (R95): BADC is checked before SADC, and the state is written before the bus (R93). -/
def bodyApplyConfig (f : ConfigFields) (s : State) : Run Unit :=
  if !adcLegal f.badc then .raised (.invalidConfigurationValue .badc f.badc) s
  else if !adcLegal f.sadc then .raised (.invalidConfigurationValue .sadc f.sadc) s
  else writeConfig
    (s.setRegs { s.regs with cfg := f, savedMode := savedModeAfter s.params s.regs.savedMode f.mode })

/-- APPLY_CONFIG (R95). -/
def execApplyConfig (f : ConfigFields) (s : State) : Host.Outcome State Fault Refusal :=
  runFrame (bodyApplyConfig f) s

/-- The body of RESET_DEVICE (R96): the sentinel is written first (R93), then `CFG.MODE` and `SAVED_MODE`. -/
def bodyResetDevice (s : State) : Run Unit :=
  (memWrite 0x00#8 Config.resetSentinel s).andThen fun _ t =>
  .returned () (t.setRegs
    { t.regs with cfg := { t.regs.cfg with mode := Config.resetMode }, savedMode := Config.resetMode })

/-- RESET_DEVICE (R96). -/
def execResetDevice (s : State) : Host.Outcome State Fault Refusal := runFrame bodyResetDevice s

/-- The body of SET_MODE (R97). -/
def bodySetMode (m : BitVec 3) (s : State) : Run Unit :=
  writeConfig (s.setRegs
    { s.regs with
      cfg := { s.regs.cfg with mode := m }
      savedMode := savedModeAfter s.params s.regs.savedMode m })

/-- SET_MODE (R97). -/
def execSetMode (m : BitVec 3) (s : State) : Host.Outcome State Fault Refusal := runFrame (bodySetMode m) s

/-- The body of STANDBY (R98): `SAVED_MODE` is not written. -/
def bodyStandby (s : State) : Run Unit :=
  writeConfig (s.setRegs { s.regs with cfg := { s.regs.cfg with mode := s.params.powerDownCode } })

/-- STANDBY (R98). -/
def execStandby (s : State) : Host.Outcome State Fault Refusal := runFrame bodyStandby s

/-- The body of RESUME (R99). -/
def bodyResume (s : State) : Run Unit :=
  writeConfig (s.setRegs { s.regs with cfg := { s.regs.cfg with mode := s.regs.savedMode } })

/-- RESUME (R99). -/
def execResume (s : State) : Host.Outcome State Fault Refusal := runFrame bodyResume s

end Sys2Proof.Machine
end

