-- ==== Sys2Proof/Machine/Measurement.lean ====
section
/-! DEFINITION. MEASURE, the ADC-result scaler and measurement formatter (43_measurement.md R106 to R108). -/

namespace Sys2Proof.Machine

/-- `ScaleShunt` (R106): volts. -/
def scaleShunt (fmt : FpFormat) (w : Word) : RealBits := fmul fmt (toFp fmt (sext16 w)) (shuntLsbV fmt)

/-- `ScaleBus` (R106): volts. -/
def scaleBus (fmt : FpFormat) (w : Word) : RealBits := fmul fmt (toFp fmt ((busValue w).toNat : Int)) (busLsbV fmt)

/-- `ScaleCurrent` (R106): amperes. -/
def scaleCurrent (fmt : FpFormat) (currentLsb : RealBits) (w : Word) : RealBits :=
  fmul fmt (toFp fmt (sext16 w)) currentLsb

/-- `ScalePower` (R106): watts. -/
def scalePower (fmt : FpFormat) (powerLsb : RealBits) (w : Word) : RealBits :=
  fmul fmt (toFp fmt (zext16 w)) powerLsb

/-- The snapshot of four raw words under a calibration result (R107). -/
def snapshotOf (fmt : FpFormat) (c : CalResult) (ws wb wc wp : Word) : Snapshot :=
  { rawShunt := ws
    rawBus := wb
    rawCurrent := wc
    rawPower := wp
    busValue := (busDecode wb).value
    ovf := (busDecode wb).ovf
    cnvr := (busDecode wb).cnvr
    shuntV := scaleShunt fmt ws
    busV := scaleBus fmt wb
    current := scaleCurrent fmt c.currentLsb wc
    power := scalePower fmt c.powerLsb wp }

/-- The body of MEASURE (R107): the stale check before any bus event, four reads with one calibration write before the
Current read (R108), and the snapshot committed in one step. -/
def bodyMeasure (s : State) : Run Unit :=
  match s.regs.cal with
  | none => .raised (.staleCalibration .measure) s
  | some c =>
    (memRead 0x01#8 s).andThen fun ws s1 =>
    (memRead 0x02#8 s1).andThen fun wb s2 =>
    (memWrite 0x05#8 s2.regs.calValue s2).andThen fun _ s3 =>
    (memRead 0x04#8 s3).andThen fun wc s4 =>
    (memRead 0x03#8 s4).andThen fun wp s5 =>
    .returned () (s5.setRegs { s5.regs with snap := some (snapshotOf s5.params.fpFormat c ws wb wc wp) })

/-- MEASURE (R107). -/
def execMeasure (s : State) : Host.Outcome State Fault Refusal := runFrame bodyMeasure s

end Sys2Proof.Machine
end

