-- ==== Sys2Proof/Machine/RegisterAccess.lean ====
section
/-! DEFINITION. READ_REG and WRITE_REG (40_register_access.md R91, R92). -/

namespace Sys2Proof.Machine

/-- The body of READ_REG (R91): the decoder's check, then the stale check, then the read. -/
def bodyReadReg (a : Byte) (s : State) : Run Unit :=
  match regDecode a with
  | none => .raised (.invalidRegisterAddress a) s
  | some (reg, _, _) =>
    if reg.needsCalibration && !s.regs.calValid then .raised (.staleCalibration (.register a)) s
    else (memRead a s).andThen fun w t => .returned () (t.setRegs { t.regs with rdata := some w })

/-- READ_REG (R91). -/
def execReadReg (a : Byte) (s : State) : Host.Outcome State Fault Refusal := runFrame (bodyReadReg a) s

/-- The body of WRITE_REG (R92): the decoder's check, then the access check, then the write; v is not validated. -/
def bodyWriteReg (a : Byte) (v : Word) (s : State) : Run Unit :=
  match regDecode a with
  | none => .raised (.invalidRegisterAddress a) s
  | some (_, .readOnly, _) => .raised (.registerNotWritable a) s
  | some (_, .readWrite, _) => memWrite a v s

/-- WRITE_REG (R92). -/
def execWriteReg (a : Byte) (v : Word) (s : State) : Host.Outcome State Fault Refusal := runFrame (bodyWriteReg a v) s

end Sys2Proof.Machine
end

