-- ==== Sys2Proof/Machine/Dispatch.lean ====
section
/-! DEFINITION. One arm per command (30_encoding.md R71). -/

namespace Sys2Proof.Machine

def exec (i : Instr) (s : State) : Host.Outcome State Fault Refusal :=
  match i with
  | .init => Sys2Proof.Machine.execInit s
  | .readReg a => Sys2Proof.Machine.execReadReg a s
  | .writeReg a v => Sys2Proof.Machine.execWriteReg a v s
  | .applyConfig f => Sys2Proof.Machine.execApplyConfig f s
  | .resetDevice => Sys2Proof.Machine.execResetDevice s
  | .setMode m => Sys2Proof.Machine.execSetMode m s
  | .standby => Sys2Proof.Machine.execStandby s
  | .resume => Sys2Proof.Machine.execResume s
  | .calibrate cr => Sys2Proof.Machine.execCalibrate cr s
  | .measure => Sys2Proof.Machine.execMeasure s

end Sys2Proof.Machine
end

