-- ==== Sys2Proof/Machine/Step.lean ====
section
/-! DEFINITION. One step of the block: a reset, the automatic INIT, or one accepted command run to its completion
(30_encoding.md R69, R72; 60_exceptions.md R110, R125; 70_reset_and_hazards.md R134, R135). -/

namespace Sys2Proof.Machine

/-- Runs the latched command word in its frame (R110): the decoded command, or IllegalCommand. -/
def runLatched (s : State) : Host.Outcome State Fault Refusal :=
  match decode s.cw s.cr with
  | some i => exec i s
  | none => runFrame illegalBody s

/-- One step. `rst` comes before everything (R134). A busy block runs the automatic INIT when that is pending (R135), and
otherwise waits for a transport that never answers and has no step (R125). An idle block accepts the offered command
(R69), or waits (R137). -/
def step (s : State) : Host.Outcome State Fault Refusal :=
  if s.rst then .next (hardwareReset s)
  else if s.busy then
    if s.autoInit then exec .init (startAutoInit s) else .fault .transportNeverAnswered
  else
    match s.offers with
    | [] => .next (waitForCommand s)
    | o :: rest => runLatched (acceptCommand o rest s)

/-- s with the table-numbered word on the command port and the block idle, so that the next step accepts and runs it
(log 8): no reset asserted, no automatic INIT pending, BUSY at 0. -/
def State.withFetchWord (s : State) (nbits w : Nat) : State :=
  { s with rst := false, busy := false, autoInit := false, offers := portWordsOfTable nbits w :: s.offers }

end Sys2Proof.Machine
end

