-- ==== Sys2Proof/Machine/Assembler.lean ====
section
/-! DEFINITION. The assembler's lines and what words they stand for (30_encoding.md R89, R90). The text of a line is not parsed
(log 21): a line is given by its mnemonic and its numbers. -/

namespace Sys2Proof.Machine

/-- An address operand: a number or a register name (R89). -/
inductive AsmAddr where
  | number (n : Nat)
  | named (r : DeviceReg)
  deriving DecidableEq, Repr

/-- `rng`: `16V` or `32V` (R89). -/
inductive AsmRange where
  | v16
  | v32
  deriving DecidableEq, Repr

/-- `gain`: `40mV`, `80mV`, `160mV` or `320mV` (R89). -/
inductive AsmGain where
  | mv40
  | mv80
  | mv160
  | mv320
  deriving DecidableEq, Repr

/-- The assembler's lines (R89) and pseudo-instructions (R90). -/
inductive AsmLine where
  | init
  | rdreg (a : AsmAddr)
  | wrreg (a : AsmAddr) (v : Nat)
  | config (rng : AsmRange) (gain : AsmGain) (badc sadc mode : Nat)
  | configw (d : Nat)
  | resetdev
  | setmode (m : Nat)
  | standby
  | resume
  /-- `CAL x`, the decimal x given as ±num / den. -/
  | cal (neg : Bool) (num den : Nat)
  | measure
  /-- Pseudo-instruction (R90). -/
  | configdef
  /-- Pseudo-instruction (R90). -/
  | pwrdn
  deriving DecidableEq, Repr

/-- The number an address operand stands for. -/
def AsmAddr.value : AsmAddr → Nat
  | .number n => n
  | .named r => r.address.toNat

/-- The RANGE code of a range name (R77). -/
def AsmRange.code : AsmRange → BitVec 1
  | .v16 => 0#1
  | .v32 => 1#1

/-- The GAIN code of a gain name (R78). -/
def AsmGain.code : AsmGain → BitVec 2
  | .mv40 => 0#2
  | .mv80 => 1#2
  | .mv160 => 2#2
  | .mv320 => 3#2

/-- An operand fits its field of the given width; one that does not is an assembly error (R89). -/
def fitsField (width n : Nat) : Bool := decide (n < 2 ^ width)

/-- The operand check of one line (R89). A decimal needs a denominator. -/
def AsmLine.wellFormed : AsmLine → Bool
  | .rdreg a => fitsField 8 a.value
  | .wrreg a v => fitsField 8 a.value && fitsField 16 v
  | .config _ _ b s m => fitsField 4 b && fitsField 4 s && fitsField 3 m
  | .configw d => fitsField 14 d
  | .setmode m => fitsField 3 m
  | .cal _ _ den => decide (0 < den)
  | .init | .resetdev | .standby | .resume | .measure | .configdef | .pwrdn => true

/-- The `CR` of `CAL x`: "binary64 bits of `fl(x)`" (R89), x being ±num / den. `fl` is read as R23 has it, the instance's
format, so under binary32 x is rounded once, to binary32, and the block's own rounding (R73) changes nothing more. DEDUCED
(log 26): R89 does not say which format its `fl` means. -/
def calOperand (p : Params) (neg : Bool) (num den : Nat) : RealBits :=
  fpToBits (fpRound p.fpFormat neg (num * fpOne) den)

/-- The words of a line whose operands fit (R89, R90). `CR` is 0 where it is ignored. -/
def AsmLine.words (p : Params) : AsmLine → PortWords
  | .init => ⟨0x10000000#32, 0#64⟩
  | .rdreg a => ⟨0x20000000#32 ||| (BitVec.ofNat 32 a.value <<< 16), 0#64⟩
  | .wrreg a v => ⟨0x30000000#32 ||| (BitVec.ofNat 32 a.value <<< 16) ||| BitVec.ofNat 32 v, 0#64⟩
  | .config rng gain b s m =>
    ⟨0x40000000#32 ||| (pack
      { range := rng.code
        gain := gain.code
        badc := BitVec.ofNat 4 b
        sadc := BitVec.ofNat 4 s
        mode := BitVec.ofNat 3 m }).setWidth 32, 0#64⟩
  | .configw d => ⟨0x40000000#32 ||| BitVec.ofNat 32 d, 0#64⟩
  | .resetdev => ⟨0x50000000#32, 0#64⟩
  | .setmode m => ⟨0x60000000#32 ||| BitVec.ofNat 32 m, 0#64⟩
  | .standby => ⟨0x70000000#32, 0#64⟩
  | .resume => ⟨0x80000000#32, 0#64⟩
  | .cal neg num den => ⟨0x90000000#32, calOperand p neg num den⟩
  | .measure => ⟨0xA0000000#32, 0#64⟩
  | .configdef => ⟨0x40000000#32 ||| 0x399F#32, 0#64⟩
  | .pwrdn => ⟨0x60000000#32 ||| p.powerDownCode.setWidth 32, 0#64⟩

/-- The command each line stands for (R71, R89, R90). -/
def AsmLine.command (p : Params) : AsmLine → Instr
  | .init => .init
  | .rdreg a => .readReg (BitVec.ofNat 8 a.value)
  | .wrreg a v => .writeReg (BitVec.ofNat 8 a.value) (BitVec.ofNat 16 v)
  | .config rng gain b s m =>
    .applyConfig
      { range := rng.code
        gain := gain.code
        badc := BitVec.ofNat 4 b
        sadc := BitVec.ofNat 4 s
        mode := BitVec.ofNat 3 m }
  | .configw d => .applyConfig (unpack (BitVec.ofNat 16 d))
  | .resetdev => .resetDevice
  | .setmode m => .setMode (BitVec.ofNat 3 m)
  | .standby => .standby
  | .resume => .resume
  | .cal neg num den => .calibrate (calOperand p neg num den)
  | .measure => .measure
  | .configdef => .applyConfig (unpack Config.defaultConfig)
  | .pwrdn => .setMode p.powerDownCode

/-- Assembling a line: no word is emitted for an operand that does not fit (R89). -/
def assemble (p : Params) (l : AsmLine) : Option PortWords :=
  if l.wellFormed then some (l.words p) else none

end Sys2Proof.Machine
end

