-- ==== Sys2Proof/Machine/Ports.lean ====
section
/-! DEFINITION. The block's ports (30_encoding.md R68), the reads of registers that may hold no value (10_state.md R28), and what the host does at them, and the transport operations behind a
bus event (20_memory.md R48, R50, R51). -/

namespace Sys2Proof

/-- FREE VALUE (log 27): what port `rdata` shows while `RDATA` holds no value. R68: "the port's content is unspecified". -/
opaque Config.freeRdata : Machine.State → Word

/-- FREE VALUE (log 27): what the eight result ports show while their registers hold no value (R68). -/
opaque Config.freeCalResult : Machine.State → Machine.CalResult

/-- FREE VALUE (log 27): what the snapshot ports show while their registers hold no value (R68). -/
opaque Config.freeSnapshot : Machine.State → Machine.Snapshot

end Sys2Proof

namespace Sys2Proof.Machine

/-! ### Reads of the registers that may hold no value

"A model reads such an element only while its valid flag is 1; a read at any other time is refused" (10_state.md R28, D22; P4 of
93_implementation_defined.md). A refused read answers `none`: the reader gets no value. It stops no command and no step (log 15). -/

/-- The read of `RDATA` (R28, R39). -/
def Regs.readRdata (r : Regs) : Option Word := r.rdata

/-- The read of one of the eight result registers, given by name, as in `r.readCalResult CalResult.maxPower` (R28, R36). -/
def Regs.readCalResult (r : Regs) (reg : CalResult → RealBits) : Option RealBits := r.cal.map reg

/-- The read of a snapshot register, given by name, as in `r.readSnapshot Snapshot.ovf` (R28, R37). -/
def Regs.readSnapshot {α : Type} (r : Regs) (reg : Snapshot → α) : Option α := r.snap.map reg

/-! ### The ports -/

/-- Input port `cmd_valid` (R68). -/
def State.cmdValid (s : State) : Bool := !s.offers.isEmpty

/-- `busy` (R68): it is live, unlike the register ports. -/
def State.busyPort (s : State) : Bool := s.busy

/-- `cmd_ready` = NOT BUSY (R68). -/
def State.cmdReady (s : State) : Bool := !s.busy

/-- `done` (R68). -/
def State.donePort (s : State) : Bool := s.done

/-- `status` (R68, R41). -/
def State.statusPort (s : State) : BitVec 4 := s.ports.status

/-- `err_sticky` (R68, R42). -/
def State.errStickyPort (s : State) : BitVec 9 := s.ports.errSticky

/-- `rdata` (R68, R39): the register's value, any value while it holds none (P4). -/
def State.rdataPort (s : State) : Word := s.ports.rdata.getD (Config.freeRdata s)

/-- `rdata_valid` (R68, R39). -/
def State.rdataValidPort (s : State) : Bool := s.ports.rdataValid

/-- `cfg_word`, always `Pack(CFG)` (R34). -/
def State.cfgWordPort (s : State) : Word := pack s.ports.cfg

/-- `saved_mode` (R68, R35). -/
def State.savedModePort (s : State) : BitVec 3 := s.ports.savedMode

/-- `cal_valid` (R68, R36). -/
def State.calValidPort (s : State) : Bool := s.ports.calValid

/-- `cal_value` (R68, R36). -/
def State.calValuePort (s : State) : Word := s.ports.calValue

/-- `current_lsb` ... `max_power` (R68, R36): the eight result ports, given by the register's name, as in
`s.calResultPort CalResult.maxPower`; any value while the registers hold none (P4). -/
def State.calResultPort (s : State) (reg : CalResult → RealBits) : RealBits :=
  reg (s.ports.cal.getD (Config.freeCalResult s))

/-- `snap_valid` (R68, R37). -/
def State.snapValidPort (s : State) : Bool := s.ports.snapValid

/-- The snapshot ports `raw_shunt` ... `power` (R68, R37), given by the register's name, as in
`s.snapshotPort Snapshot.ovf`; any value while the registers hold none (P4). -/
def State.snapshotPort {α : Type} (s : State) (reg : Snapshot → α) : α :=
  reg (s.ports.snap.getD (Config.freeSnapshot s))

/-- The host offers a command after those it offers already (R69). -/
def State.offer (s : State) (o : PortWords) : State := { s with offers := s.offers ++ [o] }

/-- The host withdraws the command it offers (R69). -/
def State.withdraw (s : State) : State := { s with offers := s.offers.tail }

/-- The host asserts `rst` (R134). -/
def State.assertRst (s : State) : State := { s with rst := true }

/-- The transport's operations (R48). -/
inductive TransportOp where
  | begin
  | beginTransaction (device : DeviceAddress)
  | writeByte (b : Byte)
  | endTransaction
  | requestBytes (device : DeviceAddress) (count : Nat)
  | awaitByteAvailable
  | readByte (b : Byte)
  deriving DecidableEq, Repr

/-- The transport operations of a bus event that succeeded (R48 to R51); none where it failed or is pending, since the
transport does not say how far it got. -/
def BusEvent.transportOps : BusEvent → Option (List TransportOp)
  | .begin => some [.begin]
  | .wr device bytes .ack => some ([.beginTransaction device] ++ bytes.map .writeByte ++ [.endTransaction])
  | .wr _ _ .err => none
  | .wr _ _ .noAnswer => none
  | .rd device (.data b0 b1) =>
    some [.requestBytes device 2, .awaitByteAvailable, .readByte b0, .awaitByteAvailable, .readByte b1]
  | .rd _ .err => none
  | .rd _ .noAnswer => none

/-- The value a host gives a raw register word, by the word format `RegDecode` names (R81 to R83, R91). -/
inductive WordValue where
  | fields (f : ConfigFields)
  | integer (n : Int)
  | bus (value : BitVec 13) (cnvr ovf : Bool)
  deriving DecidableEq, Repr

/-- The reinterpretation of a raw word (R74, R81 to R84). -/
def WordFormat.interpret : WordFormat → Word → WordValue
  | .config, w => .fields (unpack w)
  | .signed, w => .integer (sext16 w)
  | .unsigned, w => .integer (zext16 w)
  | .bus, w => .bus (busValue w) (w.getLsbD 1) (w.getLsbD 0)

end Sys2Proof.Machine
end

