-- ==== Sys2Proof/Safety.lean ====
section
/-! DEFINITION. What the claims about the block are stated in: how a command can leave the state, the invariant of every
step, and what a run must meet for its measurements to be trusted (70_reset_and_hazards.md R139 to R147). -/

namespace Sys2Proof.Machine

/-- The command completed with success (R110): the registers are r with `STATUS` 0, the ports show them, the trace has
grown by these events, and these oracle answers are left. Everything else is as it was. -/
def State.completesOk (s : State) (r : Regs) (events : List BusEvent) (ws : List WriteOutcome)
    (rs : List ReadOutcome) : State :=
  { s with
    regs := { r with status := 0#4 }
    ports := { r with status := 0#4 }
    busy := false
    done := true
    trace := s.trace ++ events
    writeAnswers := ws
    readAnswers := rs }

/-- The command completed with an error (R110, R112): as `completesOk`, but `STATUS` is the code and the code's sticky bit
is set. -/
def State.completesError (s : State) (r : Regs) (code : BitVec 4) (events : List BusEvent) (ws : List WriteOutcome)
    (rs : List ReadOutcome) : State :=
  { s with
    regs := { r with status := code, errSticky := setSticky r.errSticky code }
    ports := { r with status := code, errSticky := setSticky r.errSticky code }
    busy := false
    done := true
    trace := s.trace ++ events
    writeAnswers := ws
    readAnswers := rs }

/-- The command is stuck on its last event (R125): BUSY stays 1, no `done`, and the ports show what they showed (R144). -/
def State.staysStuck (s : State) (r : Regs) (events : List BusEvent) (ws : List WriteOutcome)
    (rs : List ReadOutcome) : State :=
  { s with
    regs := r
    busy := true
    done := false
    trace := s.trace ++ events
    writeAnswers := ws
    readAnswers := rs }

/-- The event `WR(DEV_ADDR, [a, v[15:8], v[7:0]])` with its outcome (R54). -/
def State.writeEvent (s : State) (a : Byte) (v : Word) (o : WriteOutcome) : BusEvent :=
  .wr s.params.devAddr [a, highByte v, lowByte v] o

/-- The event `WR(DEV_ADDR, [a])` with its outcome, the pointer write of a read (R53). -/
def State.pointerEvent (s : State) (a : Byte) (o : WriteOutcome) : BusEvent := .wr s.params.devAddr [a] o

/-- The event `RD(DEV_ADDR, 2)` with its outcome (R51). -/
def State.readEvent (s : State) (o : ReadOutcome) : BusEvent := .rd s.params.devAddr o

/-- The transaction succeeded. -/
def BusEvent.succeeded : BusEvent → Bool
  | .begin => true
  | .wr _ _ o => decide (o = .ack)
  | .rd _ (.data _ _) => true
  | .rd _ .err => false
  | .rd _ .noAnswer => false

/-- The transaction reported failure. -/
def BusEvent.failed : BusEvent → Bool
  | .begin => false
  | .wr _ _ o => decide (o = .err)
  | .rd _ o => decide (o = .err)

/-- The transaction was never answered. -/
def BusEvent.pending : BusEvent → Bool
  | .begin => false
  | .wr _ _ o => decide (o = .noAnswer)
  | .rd _ o => decide (o = .noAnswer)

/-- The only transactions the block issues (R58, R61): a pointer write of an existing register address, a 3-byte write
to a read-write register, a 2-byte read, all to `DEV_ADDR`. -/
def BusEvent.allowed (device : DeviceAddress) : BusEvent → Bool
  | .begin => true
  | .wr d [a] _ => d == device && decide (a.toNat ≤ 5)
  | .wr d [a, _, _] _ => d == device && (a == 0x00#8 || a == 0x05#8)
  | .wr _ _ _ => false
  | .rd d _ => d == device

/-- The calibration result registers hang together as R36 says (in the steps of R102). -/
structure CalResult.Coherent (fmt : FpFormat) (c : CalResult) : Prop where
  powerLsb_eq : c.powerLsb = fmul fmt (powerRatio fmt) c.currentLsb
  maxCurrent_eq : c.maxCurrent = fmul fmt c.currentLsb (currentDiv fmt)
  clamp_eq : c.maxCurrentBeforeOverflow = fmin c.maxCurrent c.maxPossibleCurrent
  maxShuntVoltage_eq : c.maxShuntVoltage = fmul fmt c.maxCurrentBeforeOverflow (shuntR fmt)

/-- The snapshot registers hang together as R37 says. -/
structure Snapshot.Coherent (fmt : FpFormat) (n : Snapshot) : Prop where
  busValue_eq : n.busValue.toNat = n.rawBus.toNat / 8
  ovf_eq : n.ovf = n.rawBus.getLsbD 0
  cnvr_eq : n.cnvr = n.rawBus.getLsbD 1
  shuntV_eq : n.shuntV = scaleShunt fmt n.rawShunt
  busV_eq : n.busV = scaleBus fmt n.rawBus

/-- The registers are as the rules of 10_state.md say they always are. -/
structure Regs.Legal (p : Params) (r : Regs) : Prop where
  /-- R35: "It never holds `POWER_DOWN_CODE`". -/
  savedMode_ne : r.savedMode ≠ p.powerDownCode
  /-- R100: a non-power-down mode in `CFG.MODE` was written together with `SAVED_MODE`. -/
  mode_eq : r.cfg.mode = r.savedMode ∨ r.cfg.mode = p.powerDownCode
  /-- R33: the legal values of `CFG.BADC`. -/
  badc_legal : adcLegal r.cfg.badc = true
  /-- R33: the legal values of `CFG.SADC`. -/
  sadc_legal : adcLegal r.cfg.sadc = true
  /-- R41: "Codes 9 to 15 are never written". -/
  status_le : r.status.toNat ≤ 8
  /-- R42: "Bit 0 is hardwired to 0". -/
  sticky_zero : r.errSticky.getLsbD 0 = false
  /-- R42: the last code reported has its sticky bit. -/
  status_sticky : r.status ≠ 0#4 → r.errSticky.getLsbD r.status.toNat = true
  /-- R36: without a calibration, `CAL_VALUE` is the zero the block wrote. -/
  calValue_zero : r.cal = none → r.calValue = 0#16
  /-- R36, R103: `CAL_VALUE` is the truncated quotient of the result registers. -/
  cal_coherent : ∀ c, r.cal = some c →
    c.Coherent p.fpFormat ∧ calInRange (calQuotient p.fpFormat c.currentLsb) = true ∧
      r.calValue = calValueOf (calQuotient p.fpFormat c.currentLsb)
  /-- R37, R107: a snapshot was taken under a calibration, and its fields are functions of its raw words. -/
  snap_coherent : ∀ n, r.snap = some n → r.calValid = true ∧ n.Coherent p.fpFormat

/-- The invariant of the block. -/
structure State.Inv (s : State) : Prop where
  regs_legal : s.regs.Legal s.params
  ports_legal : s.ports.Legal s.params
  /-- R26, R68: an idle block's ports show its registers. -/
  ports_current : s.busy = false → s.ports = s.regs
  /-- R134: before the automatic INIT the block is busy and the trace is empty. -/
  autoInit_fresh : s.autoInit = true → s.busy = true ∧ s.trace = []
  /-- R110: `done` is signalled when BUSY falls. -/
  done_idle : s.done = true → s.busy = false
  /-- R58, R61: the trace holds only the transactions the block may issue. -/
  trace_allowed : ∀ e ∈ s.trace, e.allowed s.params.devAddr = true
  /-- R63, R125: an idle block has no unanswered transaction. -/
  trace_answered : s.busy = false → ∀ e ∈ s.trace, e.pending = false

/-- No command has reported an error since the last hardware reset (R114). -/
def State.errorFree (s : State) : Prop := s.regs.errSticky = 0#9

/-- The snapshot may be taken for a measurement: it is there, `OVF` is clear (R145), and the calibration value is not 0
(R147). -/
def State.snapshotTrusted (s : State) : Prop :=
  ∃ n, s.regs.snap = some n ∧ n.ovf = false ∧ s.regs.calValue ≠ 0#16

/-- The command may write `CFG` (R33). -/
def writesCfg : Instr → Bool
  | .init | .applyConfig _ | .resetDevice | .setMode _ | .standby | .resume => true
  | .readReg _ | .writeReg _ _ | .calibrate _ | .measure => false

/-- The command may write `SAVED_MODE` (R35). -/
def writesSavedMode : Instr → Bool
  | .init | .applyConfig _ | .setMode _ | .resetDevice => true
  | .readReg _ | .writeReg _ _ | .standby | .resume | .calibrate _ | .measure => false

/-- The command may write the calibration result, `CAL_VALUE` and `CAL_VALID` (R36, R94). -/
def writesCalibration : Instr → Bool
  | .init | .calibrate _ => true
  | .readReg _ | .writeReg _ _ | .applyConfig _ | .resetDevice | .setMode _ | .standby | .resume | .measure => false

/-- The command may write the snapshot (R37, R94). -/
def writesSnapshot : Instr → Bool
  | .init | .measure => true
  | .readReg _ | .writeReg _ _ | .applyConfig _ | .resetDevice | .setMode _ | .standby | .resume | .calibrate _ => false

/-- The command may write `RDATA` (R39, R94). -/
def writesReadData : Instr → Bool
  | .init | .readReg _ => true
  | .writeReg _ _ | .applyConfig _ | .resetDevice | .setMode _ | .standby | .resume | .calibrate _ | .measure => false

/-- s with the snapshot, `STATUS` and `ERR_STICKY` taken out of the registers and the ports: what R38 and R113 say no command
depends on. -/
def State.withoutRecords (s : State) : State :=
  { s with
    regs := { s.regs with snap := none, status := 0#4, errSticky := 0#9 }
    ports := { s.ports with snap := none, status := 0#4, errSticky := 0#9 } }

end Sys2Proof.Machine
end

