-- ==== Sys2Proof/Certificates/Slice0/Obligations.lean ====
section
/-! DEFINITION. The statements about the block, for the provers. Each docstring names the rule of spec/ it formalises. A statement
whose conclusion is an equation exec i s = next t also says what i leaves unchanged: completesOk, completesError and staysStuck
(Safety.lean) name every part of State that changes. -/

open Sys2Proof Sys2Proof.Machine

/-! ### Encoding -/

/-- R70, R71, R73: decoding the encoded words of any command gives that command back, every operand at every value. -/
def Obligations.EveryCommandDecodesFromItsEncodedWords : Prop :=
  ∀ i : Instr, decode (encode i).word (encode i).real = some i

/-- R71, R72: a command word has one meaning: a decoded command encodes to the word it came from, and CALIBRATE keeps the real
operand. -/
def Obligations.DecodedCommandEncodesBackToItsWord : Prop :=
  ∀ (cw : CommandWord) (cr : RealBits) (i : Instr), decode cw cr = some i →
    (encode i).word = cw ∧ ∀ x, i = .calibrate x → (encode i).real = cr

/-- R72: a word is a command exactly when it matches a row of the opcode table, that row is the decoded command's, and no word
matches two rows. -/
def Obligations.WordIsACommandExactlyWhenOneTableRowMatches : Prop :=
  ∀ (cw : CommandWord) (cr : RealBits),
    ((decode cw cr).isSome = true ↔ ∃ row ∈ opcodeRows, cw &&& row.mask = row.pattern) ∧
    (∀ i, decode cw cr = some i → ∃ row ∈ opcodeRows, cw &&& row.mask = row.pattern ∧ row.mnemonic = i.mnemonic) ∧
    (∀ row ∈ opcodeRows, ∀ row' ∈ opcodeRows,
      cw &&& row.mask = row.pattern → cw &&& row'.mask = row'.pattern → row = row')

/-- R71, R87: words written out from the spec's encodings (95_test_vectors.md 2.1 and 3), legal and illegal. -/
def Obligations.WordsOfTheSpecDecodeAsListed : Prop :=
  ∀ cr : RealBits,
    decode 0x10000000#32 cr = some .init ∧
    decode 0x20050000#32 cr = some (.readReg 0x05#8) ∧
    decode 0x3005FFFF#32 cr = some (.writeReg 0x05#8 0xFFFF#16) ∧
    decode 0x40000E9D#32 cr = some (.applyConfig ⟨0#1, 1#2, 13#4, 3#4, 5#3⟩) ∧
    decode 0x50000000#32 cr = some .resetDevice ∧
    decode 0x60000007#32 cr = some (.setMode 7#3) ∧
    decode 0x70000000#32 cr = some .standby ∧
    decode 0x80000000#32 cr = some .resume ∧
    decode 0x90000000#32 cr = some (.calibrate cr) ∧
    decode 0xA0000000#32 cr = some .measure ∧
    decode 0x00000000#32 cr = none ∧ decode 0x10000001#32 cr = none ∧ decode 0x11000000#32 cr = none ∧
    decode 0x200500FF#32 cr = none ∧ decode 0x21060000#32 cr = none ∧ decode 0x40004000#32 cr = none ∧
    decode 0x40010E9D#32 cr = none ∧ decode 0x60000008#32 cr = none ∧ decode 0x90010000#32 cr = none ∧
    decode 0xA0000001#32 cr = none ∧ decode 0xB0000000#32 cr = none ∧ decode 0xFFFFFFFF#32 cr = none

/-- R72, R88: the real operand changes the decoding of no word but CALIBRATE's. -/
def Obligations.RealOperandIsReadOnlyByCalibrate : Prop :=
  ∀ (cw : CommandWord) (cr cr' : RealBits), opField cw ≠ 0x9#4 → decode cw cr = decode cw cr'

/-- R75: Pack is the bitwise or of the shifted codes, the codes stand at their positions, and bits 15 and 14 are 0. -/
def Obligations.PackPlacesTheFiveCodes : Prop :=
  (∀ f : ConfigFields,
    pack f = ((f.range.setWidth 16 <<< 13) ||| (f.gain.setWidth 16 <<< 11) ||| (f.badc.setWidth 16 <<< 7) |||
      (f.sadc.setWidth 16 <<< 3) ||| f.mode.setWidth 16) ∧
    (pack f).toNat = f.range.toNat * 2 ^ 13 + f.gain.toNat * 2 ^ 11 + f.badc.toNat * 2 ^ 7 + f.sadc.toNat * 2 ^ 3 +
      f.mode.toNat ∧
    (pack f).getLsbD 15 = false ∧ (pack f).getLsbD 14 = false) ∧
  pack ⟨1#1, 3#2, 3#4, 3#4, 7#3⟩ = 0x399F#16

/-- R76: the fields Unpack reads, and its two laws with Pack. -/
def Obligations.UnpackUndoesPack : Prop :=
  (∀ w : Word,
    (unpack w).range.toNat = w.toNat / 2 ^ 13 % 2 ∧ (unpack w).gain.toNat = w.toNat / 2 ^ 11 % 4 ∧
    (unpack w).badc.toNat = w.toNat / 2 ^ 7 % 16 ∧ (unpack w).sadc.toNat = w.toNat / 2 ^ 3 % 16 ∧
    (unpack w).mode.toNat = w.toNat % 8) ∧
  (∀ f : ConfigFields, unpack (pack f) = f) ∧
  (∀ w : Word, pack (unpack w) = w &&& 0x3FFF#16)

/-- R86: the register-address decoder. -/
def Obligations.RegisterAddressDecoderTable : Prop :=
  regDecode 0x00#8 = some (.config, .readWrite, .config) ∧
  regDecode 0x01#8 = some (.shuntVoltage, .readOnly, .signed) ∧
  regDecode 0x02#8 = some (.busVoltage, .readOnly, .bus) ∧
  regDecode 0x03#8 = some (.power, .readOnly, .unsigned) ∧
  regDecode 0x04#8 = some (.current, .readOnly, .signed) ∧
  regDecode 0x05#8 = some (.calibration, .readWrite, .unsigned) ∧
  (∀ a : Byte, 0x05 < a.toNat → regDecode a = none)

/-- R81: Shunt Voltage and Current words are signed. -/
def Obligations.SignedWordsAreTwosComplement : Prop :=
  (∀ w : Word,
    sext16 w = (if w.toNat < 32768 then (w.toNat : Int) else (w.toNat : Int) - 65536) ∧
    -32768 ≤ sext16 w ∧ sext16 w ≤ 32767 ∧
    (∀ a reg acc fmt, regDecode a = some (reg, acc, fmt) → (reg = .shuntVoltage ∨ reg = .current) →
      fmt.interpret w = .integer (sext16 w))) ∧
  sext16 0xFFFF#16 = -1 ∧ sext16 0x7FFF#16 = 32767

/-- R83: the Bus Voltage word's value and flags; bit 2 is ignored. -/
def Obligations.BusVoltageWordSplits : Prop :=
  ∀ w : Word,
    (busDecode w).value.toNat = w.toNat / 8 ∧
    (busDecode w).cnvr = decide (w.toNat / 2 % 2 = 1) ∧
    (busDecode w).ovf = decide (w.toNat % 2 = 1) ∧
    busDecode (w ^^^ 0x0004#16) = busDecode w

/-! ### The bus -/

/-- R53: a register read is a pointer write and a 2-byte read, big-endian, each of which may fail or never be answered. -/
def Obligations.RegisterReadProtocol : Prop :=
  (∀ b0 b1 : Byte, (wordOfBytes b0 b1).toNat = b0.toNat * 256 + b1.toNat) ∧
  ∀ (a : Byte) (s : State) (ws : List WriteOutcome),
    (s.writeAnswers = .err :: ws → memRead a s = .raised .transportError
      { s with trace := s.trace ++ [s.pointerEvent a .err], writeAnswers := ws }) ∧
    (s.writeAnswers = .noAnswer :: ws → memRead a s = .hung
      { s with trace := s.trace ++ [s.pointerEvent a .noAnswer], writeAnswers := ws }) ∧
    (∀ (r : ReadOutcome) (rs : List ReadOutcome), s.writeAnswers = .ack :: ws → s.readAnswers = r :: rs →
      memRead a s =
        let t := { s with
          trace := s.trace ++ [s.pointerEvent a .ack, s.readEvent r]
          writeAnswers := ws
          readAnswers := rs }
        match r with
        | .data b0 b1 => .returned (wordOfBytes b0 b1) t
        | .err => .raised .transportError t
        | .noAnswer => .hung t)

/-- R54: a register write is one transaction of address, high byte, low byte. -/
def Obligations.RegisterWriteProtocol : Prop :=
  ∀ (a : Byte) (v : Word) (s : State) (o : WriteOutcome) (ws : List WriteOutcome), s.writeAnswers = o :: ws →
    (highByte v).toNat = v.toNat / 256 ∧ (lowByte v).toNat = v.toNat % 256 ∧
    memWrite a v s =
      let t := { s with
        trace := s.trace ++ [.wr s.params.devAddr [a, highByte v, lowByte v] o]
        writeAnswers := ws }
      match o with
      | .ack => .returned () t
      | .err => .raised .transportError t
      | .noAnswer => .hung t

/-! ### The step -/

/-- R69: an idle block accepts the offered words, latches them, and the step is the decoded command. -/
def Obligations.StepRunsTheDecodedCommand : Prop :=
  ∀ (s : State) (o : PortWords) (rest : List PortWords) (i : Instr),
    s.rst = false → s.busy = false → s.offers = o :: rest → decode o.word o.real = some i →
    step s = exec i { s with cw := o.word, cr := o.real, busy := true, done := false, offers := rest }

/-- R69, R87, R110, R123: a word that is no command completes with code 8, with no bus event and no other register written.
That the offer leaves a queue (offers := rest) is the model's choice (log 4), and so is done as a Bool (log 6). -/
def Obligations.IllegalWordReportsCodeEight : Prop :=
  ∀ (s : State) (o : PortWords) (rest : List PortWords),
    s.rst = false → s.busy = false → s.offers = o :: rest → decode o.word o.real = none →
    step s = .next
      (({ s with cw := o.word, cr := o.real, offers := rest } : State).completesError s.regs 8#4 [] s.writeAnswers
        s.readAnswers)

/-- R137: an idle block that is offered nothing waits; that done is taken back in that step is log 6's choice. -/
def Obligations.IdleBlockWaitsForACommand : Prop :=
  ∀ s : State, s.rst = false → s.busy = false → s.offers = [] → step s = .next { s with done := false }

/-- R69, R135: while the block runs its automatic INIT no offer is accepted: it is held. -/
def Obligations.OfferIsHeldDuringTheAutomaticInit : Prop :=
  ∀ s : State, s.rst = false → s.busy = true → s.autoInit = true →
    ∃ t, step s = .next t ∧ t.offers = s.offers ∧ t.cw = s.cw ∧ t.cr = s.cr

/-- R125: a transaction that is never answered leaves BUSY at 1 and the command uncompleted, and nothing else leaves it so; from
there the block has no step until the hardware reset. -/
def Obligations.UnansweredTransactionLeavesTheBlockStuck : Prop :=
  (∀ (i : Instr) (s t : State) (events : List BusEvent), exec i s = .next t → t.trace = s.trace ++ events →
    (∃ e ∈ events, e.pending = true) → t.busy = true ∧ t.done = false) ∧
  (∀ (i : Instr) (s t : State), exec i s = .next t → t.busy = true →
    t.done = false ∧ t.ports = s.ports ∧
    (∃ events e, t.trace = s.trace ++ events ++ [e] ∧ e.pending = true ∧ ∀ x ∈ events, x.succeeded = true)) ∧
  (∀ s : State, s.busy = true → s.autoInit = false →
    (s.rst = false → step s = .fault .transportNeverAnswered) ∧
    (s.rst = true → ∃ t, step s = .next t ∧ t.autoInit = true))

/-- R134: the hardware reset puts every state element at its reset value and clears the trace, and the automatic INIT is next.
The model's choice, not R134's: t.rst = false, since one step is the assertion and the release of rst (log 5), and t.done = false
(log 6). -/
def Obligations.HardwareResetRestoresEveryElement : Prop :=
  ∀ s : State, s.rst = true → ∃ t, step s = .next t ∧
    t.regs =
      { cfg := ⟨1#1, 3#2, 3#4, 3#4, 7#3⟩
        savedMode := 7#3
        calValue := 0x0000#16
        cal := none
        snap := none
        rdata := none
        status := 0#4
        errSticky := 0#9 } ∧
    t.ports = t.regs ∧ t.busy = true ∧ t.done = false ∧ t.trace = [] ∧ t.rst = false ∧ t.autoInit = true

/-- R135, R136: the automatic INIT from the reset registers: its trace and its state for each outcome of its two writes:
both succeed, either fails, either is never answered (R50, R125). -/
def Obligations.AutomaticInitAfterReset : Prop :=
  ∀ (s : State) (ws : List WriteOutcome),
    s.rst = false → s.busy = true → s.autoInit = true → s.trace = [] → s.regs = State.reset.regs →
    let t : State := { s with autoInit := false }
    let config := s.writeEvent 0x00#8 0x399F#16
    let calibration := s.writeEvent 0x05#8 0x0000#16
    let boot : Regs :=
      { cfg := ⟨1#1, 3#2, 3#4, 3#4, 7#3⟩
        savedMode := 7#3
        calValue := 0x0000#16
        cal := none
        snap := none
        rdata := none
        status := 0#4
        errSticky := 0#9 }
    pack boot.cfg = 0x399F#16 ∧
    (s.writeAnswers = .ack :: .ack :: ws →
      step s = .next (t.completesOk boot [.begin, config .ack, calibration .ack] ws s.readAnswers)) ∧
    (s.writeAnswers = .err :: ws →
      step s = .next (t.completesError boot 1#4 [.begin, config .err] ws s.readAnswers)) ∧
    (s.writeAnswers = .ack :: .err :: ws →
      step s = .next (t.completesError boot 1#4 [.begin, config .ack, calibration .err] ws s.readAnswers)) ∧
    (s.writeAnswers = .noAnswer :: ws →
      step s = .next (t.staysStuck boot [.begin, config .noAnswer] ws s.readAnswers)) ∧
    (s.writeAnswers = .ack :: .noAnswer :: ws →
      step s = .next (t.staysStuck boot [.begin, config .ack, calibration .noAnswer] ws s.readAnswers)) ∧
    setSticky 0#9 1#4 = 0x002#9

/-! ### The commands -/

/-- R94: INIT, for every outcome of its two writes. -/
def Obligations.InitCommand : Prop :=
  (∀ cr, decode 0x10000000#32 cr = some .init) ∧
  ∀ (s : State) (ws : List WriteOutcome),
    let r : Regs := { s.regs with
      cfg := ⟨1#1, 3#2, 3#4, 3#4, 7#3⟩
      savedMode := 7#3
      calValue := 0x0000#16
      cal := none
      snap := none
      rdata := none }
    let config := s.writeEvent 0x00#8 0x399F#16
    let calibration := s.writeEvent 0x05#8 0x0000#16
    pack r.cfg = 0x399F#16 ∧
    (s.writeAnswers = .ack :: .ack :: ws →
      exec .init s = .next (s.completesOk r [.begin, config .ack, calibration .ack] ws s.readAnswers)) ∧
    (s.writeAnswers = .err :: ws →
      exec .init s = .next (s.completesError r 1#4 [.begin, config .err] ws s.readAnswers)) ∧
    (s.writeAnswers = .noAnswer :: ws →
      exec .init s = .next (s.staysStuck r [.begin, config .noAnswer] ws s.readAnswers)) ∧
    (s.writeAnswers = .ack :: .err :: ws →
      exec .init s = .next (s.completesError r 1#4 [.begin, config .ack, calibration .err] ws s.readAnswers)) ∧
    (s.writeAnswers = .ack :: .noAnswer :: ws →
      exec .init s = .next (s.staysStuck r [.begin, config .ack, calibration .noAnswer] ws s.readAnswers))

/-- R91: READ_REG: its two checks, and every outcome of its two transactions. -/
def Obligations.ReadRegisterCommand : Prop :=
  ∀ (a : Byte) (s : State),
    (∀ cr, decode (0x20000000#32 ||| (a.setWidth 32 <<< 16)) cr = some (.readReg a)) ∧
    (0x05 < a.toNat →
      exec (.readReg a) s = .next (s.completesError s.regs 6#4 [] s.writeAnswers s.readAnswers)) ∧
    ((a = 0x03#8 ∨ a = 0x04#8) → s.regs.calValid = false →
      exec (.readReg a) s = .next (s.completesError s.regs 3#4 [] s.writeAnswers s.readAnswers)) ∧
    (a.toNat ≤ 0x05 → (a = 0x03#8 ∨ a = 0x04#8 → s.regs.calValid = true) →
      ∀ (ws : List WriteOutcome) (rs : List ReadOutcome),
      (∀ b0 b1, s.writeAnswers = .ack :: ws → s.readAnswers = .data b0 b1 :: rs →
        exec (.readReg a) s = .next (s.completesOk { s.regs with rdata := some (wordOfBytes b0 b1) }
          [s.pointerEvent a .ack, s.readEvent (.data b0 b1)] ws rs)) ∧
      (s.writeAnswers = .err :: ws →
        exec (.readReg a) s = .next (s.completesError s.regs 1#4 [s.pointerEvent a .err] ws s.readAnswers)) ∧
      (s.writeAnswers = .noAnswer :: ws →
        exec (.readReg a) s = .next (s.staysStuck s.regs [s.pointerEvent a .noAnswer] ws s.readAnswers)) ∧
      (s.writeAnswers = .ack :: ws → s.readAnswers = .err :: rs →
        exec (.readReg a) s = .next (s.completesError s.regs 1#4 [s.pointerEvent a .ack, s.readEvent .err] ws rs)) ∧
      (s.writeAnswers = .ack :: ws → s.readAnswers = .noAnswer :: rs →
        exec (.readReg a) s = .next (s.staysStuck s.regs [s.pointerEvent a .ack, s.readEvent .noAnswer] ws rs)))

/-- R92: WRITE_REG: its two checks, and every outcome of its write; no block register is written, whatever v is. -/
def Obligations.WriteRegisterCommand : Prop :=
  ∀ (a : Byte) (v : Word) (s : State),
    (∀ cr, decode (0x30000000#32 ||| (a.setWidth 32 <<< 16) ||| v.setWidth 32) cr = some (.writeReg a v)) ∧
    (0x05 < a.toNat →
      exec (.writeReg a v) s = .next (s.completesError s.regs 6#4 [] s.writeAnswers s.readAnswers)) ∧
    (0x01 ≤ a.toNat → a.toNat ≤ 0x04 →
      exec (.writeReg a v) s = .next (s.completesError s.regs 7#4 [] s.writeAnswers s.readAnswers)) ∧
    ((a = 0x00#8 ∨ a = 0x05#8) → ∀ (o : WriteOutcome) (ws : List WriteOutcome), s.writeAnswers = o :: ws →
      exec (.writeReg a v) s = .next
        (match o with
        | .ack => s.completesOk s.regs [s.writeEvent a v .ack] ws s.readAnswers
        | .err => s.completesError s.regs 1#4 [s.writeEvent a v .err] ws s.readAnswers
        | .noAnswer => s.staysStuck s.regs [s.writeEvent a v .noAnswer] ws s.readAnswers))

/-- R95: APPLY_CONFIG: the ADC code check, BADC first, and every outcome of its write; the state writes stand when it fails. -/
def Obligations.ApplyConfigCommand : Prop :=
  ∀ (f : ConfigFields) (s : State),
    let r : Regs := { s.regs with
      cfg := f
      savedMode := if f.mode = s.params.powerDownCode then s.regs.savedMode else f.mode }
    (∀ cr, decode (0x40000000#32 ||| (pack f).setWidth 32) cr = some (.applyConfig f)) ∧
    (4 ≤ f.badc.toNat → f.badc.toNat ≤ 7 →
      bodyApplyConfig f s = .raised (.invalidConfigurationValue .badc f.badc) s) ∧
    (¬(4 ≤ f.badc.toNat ∧ f.badc.toNat ≤ 7) → 4 ≤ f.sadc.toNat → f.sadc.toNat ≤ 7 →
      bodyApplyConfig f s = .raised (.invalidConfigurationValue .sadc f.sadc) s) ∧
    ((4 ≤ f.badc.toNat ∧ f.badc.toNat ≤ 7) ∨ (4 ≤ f.sadc.toNat ∧ f.sadc.toNat ≤ 7) →
      exec (.applyConfig f) s = .next (s.completesError s.regs 2#4 [] s.writeAnswers s.readAnswers)) ∧
    (¬(4 ≤ f.badc.toNat ∧ f.badc.toNat ≤ 7) → ¬(4 ≤ f.sadc.toNat ∧ f.sadc.toNat ≤ 7) →
      ∀ (o : WriteOutcome) (ws : List WriteOutcome), s.writeAnswers = o :: ws →
      exec (.applyConfig f) s = .next
        (match o with
        | .ack => s.completesOk r [s.writeEvent 0x00#8 (pack f) .ack] ws s.readAnswers
        | .err => s.completesError r 1#4 [s.writeEvent 0x00#8 (pack f) .err] ws s.readAnswers
        | .noAnswer => s.staysStuck r [s.writeEvent 0x00#8 (pack f) .noAnswer] ws s.readAnswers))

/-- R96: RESET_DEVICE, for every outcome of its write; a failed one leaves CFG.MODE and SAVED_MODE as they were. -/
def Obligations.ResetDeviceCommand : Prop :=
  (∀ cr, decode 0x50000000#32 cr = some .resetDevice) ∧
  ∀ (s : State) (o : WriteOutcome) (ws : List WriteOutcome), s.writeAnswers = o :: ws →
    exec .resetDevice s = .next
      (match o with
      | .ack => s.completesOk { s.regs with cfg := { s.regs.cfg with mode := 7#3 }, savedMode := 7#3 }
          [s.writeEvent 0x00#8 0x8000#16 .ack] ws s.readAnswers
      | .err => s.completesError s.regs 1#4 [s.writeEvent 0x00#8 0x8000#16 .err] ws s.readAnswers
      | .noAnswer => s.staysStuck s.regs [s.writeEvent 0x00#8 0x8000#16 .noAnswer] ws s.readAnswers)

/-- R97: SET_MODE, for every outcome of its write; the state writes stand when it fails. -/
def Obligations.SetModeCommand : Prop :=
  ∀ (m : BitVec 3) (s : State) (o : WriteOutcome) (ws : List WriteOutcome),
    let r : Regs := { s.regs with
      cfg := { s.regs.cfg with mode := m }
      savedMode := if m = s.params.powerDownCode then s.regs.savedMode else m }
    (∀ cr, decode (0x60000000#32 ||| m.setWidth 32) cr = some (.setMode m)) ∧
    (s.writeAnswers = o :: ws →
      exec (.setMode m) s = .next
        (match o with
        | .ack => s.completesOk r [s.writeEvent 0x00#8 (pack r.cfg) .ack] ws s.readAnswers
        | .err => s.completesError r 1#4 [s.writeEvent 0x00#8 (pack r.cfg) .err] ws s.readAnswers
        | .noAnswer => s.staysStuck r [s.writeEvent 0x00#8 (pack r.cfg) .noAnswer] ws s.readAnswers))

/-- R98: STANDBY, for every outcome of its write; SAVED_MODE is not written. -/
def Obligations.StandbyCommand : Prop :=
  (∀ cr, decode 0x70000000#32 cr = some .standby) ∧
  ∀ (s : State) (o : WriteOutcome) (ws : List WriteOutcome),
    let r : Regs := { s.regs with cfg := { s.regs.cfg with mode := s.params.powerDownCode } }
    s.writeAnswers = o :: ws →
      exec .standby s = .next
        (match o with
        | .ack => s.completesOk r [s.writeEvent 0x00#8 (pack r.cfg) .ack] ws s.readAnswers
        | .err => s.completesError r 1#4 [s.writeEvent 0x00#8 (pack r.cfg) .err] ws s.readAnswers
        | .noAnswer => s.staysStuck r [s.writeEvent 0x00#8 (pack r.cfg) .noAnswer] ws s.readAnswers)

/-- R99: RESUME, for every outcome of its write. -/
def Obligations.ResumeCommand : Prop :=
  (∀ cr, decode 0x80000000#32 cr = some .resume) ∧
  ∀ (s : State) (o : WriteOutcome) (ws : List WriteOutcome),
    let r : Regs := { s.regs with cfg := { s.regs.cfg with mode := s.regs.savedMode } }
    s.writeAnswers = o :: ws →
      exec .resume s = .next
        (match o with
        | .ack => s.completesOk r [s.writeEvent 0x00#8 (pack r.cfg) .ack] ws s.readAnswers
        | .err => s.completesError r 1#4 [s.writeEvent 0x00#8 (pack r.cfg) .err] ws s.readAnswers
        | .noAnswer => s.staysStuck r [s.writeEvent 0x00#8 (pack r.cfg) .noAnswer] ws s.readAnswers)

/-- R102, steps 1 to 10: CALIBRATE on a finite positive current whose quotient fits 16 bits, for every outcome of its write; the
results stand when the write fails. -/
def Obligations.CalibrateCommand : Prop :=
  (∀ cr, decode 0x90000000#32 cr = some (.calibrate cr)) ∧
  ∀ (cr : RealBits) (s : State) (o : WriteOutcome) (ws : List WriteOutcome),
    let fmt := s.params.fpFormat
    let i := flBits fmt cr
    let lsb := fdiv fmt i (flDecimal fmt 32768 1)
    let vShunt := vShuntMax fmt s.regs.cfg.gain
    let mpc := fdiv fmt vShunt (flDecimal fmt 1 10)
    let mc := fmul fmt lsb (flDecimal fmt 32768 1)
    let mcbo := fmin mc mpc
    let msv := fmul fmt mcbo (flDecimal fmt 1 10)
    let q := fdiv fmt (flDecimal fmt 4096 100000) (fmul fmt lsb (flDecimal fmt 1 10))
    let c : Word := BitVec.ofInt 16 (truncFp q)
    let r : Regs := { s.regs with
      cal := some
        { currentLsb := lsb
          powerLsb := fmul fmt (flDecimal fmt 20 1) lsb
          maxPossibleCurrent := mpc
          maxCurrent := mc
          maxCurrentBeforeOverflow := mcbo
          maxShuntVoltage := msv
          maxShuntVoltageBeforeOverflow := fmin msv vShunt
          maxPower := fmul fmt mcbo (vBusMax fmt s.regs.cfg.range) }
      calValue := c }
    isFinite i = true → isPositive i = true → isFinite q = true → truncFp q ≤ 65535 → s.writeAnswers = o :: ws →
      exec (.calibrate cr) s = .next
        (match o with
        | .ack => s.completesOk r [s.writeEvent 0x05#8 c .ack] ws s.readAnswers
        | .err => s.completesError r 1#4 [s.writeEvent 0x05#8 c .err] ws s.readAnswers
        | .noAnswer => s.staysStuck r [s.writeEvent 0x05#8 c .noAnswer] ws s.readAnswers)

/-- R119: CALIBRATE refuses a current that is not finite or not above 0.0. -/
def Obligations.CalibrateRefusesABadCurrent : Prop :=
  ∀ (cr : RealBits) (s : State),
    isFinite (flBits s.params.fpFormat cr) = false ∨ isPositive (flBits s.params.fpFormat cr) = false →
    exec (.calibrate cr) s = .next (s.completesError s.regs 4#4 [] s.writeAnswers s.readAnswers)

/-- R120: CALIBRATE refuses a quotient that is not finite or truncates above 65535. -/
def Obligations.CalibrateRefusesAValueBeyondSixteenBits : Prop :=
  ∀ (cr : RealBits) (s : State),
    let fmt := s.params.fpFormat
    let i := flBits fmt cr
    let q := fdiv fmt (flDecimal fmt 4096 100000)
      (fmul fmt (fdiv fmt i (flDecimal fmt 32768 1)) (flDecimal fmt 1 10))
    isFinite i = true → isPositive i = true → isFinite q = false ∨ 65535 < truncFp q →
    exec (.calibrate cr) s = .next (s.completesError s.regs 5#4 [] s.writeAnswers s.readAnswers)

/-- R103: the calibration value written is the truncation of the quotient toward zero, in every format; for 3.0 A it is
4473, and the binary64 quotient is 4473.924266666666. -/
def Obligations.CalibrationValueIsTruncated : Prop :=
  (∀ (cr : RealBits) (s : State),
    let fmt := s.params.fpFormat
    let i := flBits fmt cr
    let q := fdiv fmt (flDecimal fmt 4096 100000)
      (fmul fmt (fdiv fmt i (flDecimal fmt 32768 1)) (flDecimal fmt 1 10))
    isFinite i = true → isPositive i = true → isFinite q = true → truncFp q ≤ 65535 →
    ∃ t units, exec (.calibrate cr) s = .next t ∧ fpOfBits q = .finite false units ∧
      t.regs.calValue.toNat * 2 ^ 1074 ≤ units ∧ units < (t.regs.calValue.toNat + 1) * 2 ^ 1074) ∧
  (∀ fmt, calValueOf (calQuotient fmt (fdiv fmt 0x4008000000000000#64 (flDecimal fmt 32768 1))) = 4473#16) ∧
  calQuotient .binary64 (fdiv .binary64 0x4008000000000000#64 (flDecimal .binary64 32768 1)) = 0x40B179EC9CBD821D#64

/-- R102, R141: whether CALIBRATE is refused, CAL_VALUE, CURRENT_LSB and POWER_LSB depend on the current and the number format
alone, not on RANGE, GAIN or anything else. -/
def Obligations.CalibrationDependsOnTheCurrentAlone : Prop :=
  ∀ (cr : RealBits) (s s' t t' : State), s.params.fpFormat = s'.params.fpFormat →
    exec (.calibrate cr) s = .next t → exec (.calibrate cr) s' = .next t' →
    t.busy = false → t'.busy = false →
    (t.regs.status = 4#4 ↔ t'.regs.status = 4#4) ∧ (t.regs.status = 5#4 ↔ t'.regs.status = 5#4) ∧
    (t.regs.status ≠ 4#4 → t.regs.status ≠ 5#4 →
      t.regs.calValue = t'.regs.calValue ∧ ∃ c c', t.regs.cal = some c ∧ t'.regs.cal = some c' ∧
        c.currentLsb = c'.currentLsb ∧ c.powerLsb = c'.powerLsb)

/-- R102 (corner cases): in binary64, MAX_CURRENT is exactly I for every finite I of at least 2^-1007. -/
def Obligations.MaxCurrentIsTheExpectedCurrent : Prop :=
  ∀ (cr : RealBits) (range : BitVec 1) (gain : BitVec 2),
    0x0100000000000000 ≤ cr.toNat → cr.toNat < 0x7FF0000000000000 →
    (calResult .binary64 range gain cr).maxCurrent = cr

/-- R101, R104: the engine's two lookups, and the clamp of step 7 of R102: MAX_SHUNT_VOLTAGE_BEFORE_OVERFLOW never exceeds the
gain's ceiling. The pairing of the gain codes 0 to 2 with 40, 80 and 160 is general knowledge in the spec itself (R78, G4;
PRESUMED, log 10). -/
def Obligations.LookupsAndShuntClamp : Prop :=
  ∀ fmt : FpFormat,
    vBusMax fmt 0#1 = 0x4030000000000000#64 ∧ vBusMax fmt 1#1 = 0x4040000000000000#64 ∧
    vShuntMax fmt 0#2 = 0x4044000000000000#64 ∧ vShuntMax fmt 1#2 = 0x4054000000000000#64 ∧
    vShuntMax fmt 2#2 = 0x4064000000000000#64 ∧ vShuntMax fmt 3#2 = 0x4074000000000000#64 ∧
    ∀ (range : BitVec 1) (gain : BitVec 2) (i : RealBits),
      fle (calResult fmt range gain i).maxShuntVoltageBeforeOverflow (vShuntMax fmt gain) = true ∧
      (calResult fmt range gain i).maxPossibleCurrent = fdiv fmt (vShuntMax fmt gain) (shuntR fmt) ∧
      (calResult fmt range gain i).maxPower =
        fmul fmt (calResult fmt range gain i).maxCurrentBeforeOverflow (vBusMax fmt range)

/-- R107, R108: MEASURE with every transaction answered: the nine events, with the calibration write between the Bus Voltage and
the Current read, and the whole snapshot. -/
def Obligations.MeasureCommand : Prop :=
  (∀ cr, decode 0xA0000000#32 cr = some .measure) ∧
  ∀ (s : State) (c : CalResult) (ws : List WriteOutcome) (rs : List ReadOutcome) (s0 s1 u0 u1 c0 c1 p0 p1 : Byte),
    s.regs.cal = some c →
    s.writeAnswers = .ack :: .ack :: .ack :: .ack :: .ack :: ws →
    s.readAnswers = .data s0 s1 :: .data u0 u1 :: .data c0 c1 :: .data p0 p1 :: rs →
    let fmt := s.params.fpFormat
    let shunt := wordOfBytes s0 s1
    let bus := wordOfBytes u0 u1
    let current := wordOfBytes c0 c1
    let power := wordOfBytes p0 p1
    exec .measure s = .next (s.completesOk
      { s.regs with
        snap := some
          { rawShunt := shunt
            rawBus := bus
            rawCurrent := current
            rawPower := power
            busValue := (busDecode bus).value
            ovf := (busDecode bus).ovf
            cnvr := (busDecode bus).cnvr
            shuntV := fmul fmt (toFp fmt (sext16 shunt)) (flDecimal fmt 1 100000)
            busV := fmul fmt (toFp fmt ((bus.toNat / 8 : Nat) : Int)) (flDecimal fmt 4 1000)
            current := fmul fmt (toFp fmt (sext16 current)) c.currentLsb
            power := fmul fmt (toFp fmt (power.toNat : Int)) c.powerLsb } }
      [s.pointerEvent 0x01#8 .ack, s.readEvent (.data s0 s1), s.pointerEvent 0x02#8 .ack, s.readEvent (.data u0 u1),
        s.writeEvent 0x05#8 s.regs.calValue .ack, s.pointerEvent 0x04#8 .ack, s.readEvent (.data c0 c1),
        s.pointerEvent 0x03#8 .ack, s.readEvent (.data p0 p1)] ws rs)

/-- R65: MEASURE changes all snapshot registers together at a successful completion, or none of them. -/
def Obligations.MeasureCommitsAllOrNothing : Prop :=
  ∀ s t : State, exec .measure s = .next t →
    (t.busy = false ∧ ∃ n, t.regs = { s.regs with status := 0#4, snap := some n } ∧ t.ports = t.regs ∧
      ∃ s0 s1 u0 u1 c0 c1 p0 p1 : Byte,
        n.rawShunt = wordOfBytes s0 s1 ∧ n.rawBus = wordOfBytes u0 u1 ∧ n.rawCurrent = wordOfBytes c0 c1 ∧
        n.rawPower = wordOfBytes p0 p1 ∧
        t.trace.filter (fun e => match e with | .rd _ _ => true | _ => false) =
          s.trace.filter (fun e => match e with | .rd _ _ => true | _ => false) ++
            [s.readEvent (.data s0 s1), s.readEvent (.data u0 u1), s.readEvent (.data c0 c1),
              s.readEvent (.data p0 p1)]) ∨
    (t.busy = false ∧ ∃ code, code ≠ 0#4 ∧
      t.regs = { s.regs with status := code, errSticky := setSticky s.regs.errSticky code } ∧ t.ports = t.regs) ∨
    (t.busy = true ∧ t.regs = s.regs ∧ t.ports = s.ports)

/-- R118: while no calibration has been computed, MEASURE and READ_REG of Power or Current complete with code 3 and no bus event. -/
def Obligations.StaleCalibrationIsReported : Prop :=
  ∀ s : State, s.regs.calValid = false →
    exec .measure s = .next (s.completesError s.regs 3#4 [] s.writeAnswers s.readAnswers) ∧
    exec (.readReg 0x03#8) s = .next (s.completesError s.regs 3#4 [] s.writeAnswers s.readAnswers) ∧
    exec (.readReg 0x04#8) s = .next (s.completesError s.regs 3#4 [] s.writeAnswers s.readAnswers)

/-- R109: the source's decoding properties, and the idempotence of MEASURE. -/
def Obligations.MeasureTwiceOnEqualBytesGivesEqualSnapshots : Prop :=
  (sext16 0xFFFF#16 = -1 ∧ sext16 0x7FFF#16 = 32767 ∧ busDecode 0x1FFB#16 = ⟨0x3FF#13, true, true⟩) ∧
  ∀ (s : State) (ws : List WriteOutcome) (rs : List ReadOutcome) (s0 s1 u0 u1 c0 c1 p0 p1 : Byte),
    s.regs.calValid = true →
    s.writeAnswers =
      ([.ack, .ack, .ack, .ack, .ack] : List WriteOutcome) ++
        ([.ack, .ack, .ack, .ack, .ack] : List WriteOutcome) ++ ws →
    s.readAnswers =
      ([.data s0 s1, .data u0 u1, .data c0 c1, .data p0 p1] : List ReadOutcome) ++
        ([.data s0 s1, .data u0 u1, .data c0 c1, .data p0 p1] : List ReadOutcome) ++ rs →
    ∃ t u n, exec .measure s = .next t ∧ exec .measure t = .next u ∧
      t.regs.snap = some n ∧ u.regs.snap = some n ∧ t.regs.status = 0#4 ∧ u.regs.status = 0#4

/-! ### Arithmetic -/

/-- R18, R23: the rounding of every operation gives a value of the format at least as near to the exact one as any other value of
the format (the exponent unbounded above, as IEEE 754 rounds before it overflows); where another value v is equally near, the two
are neighbours, 2 ^ e apart, and the one given has the even significand. The content of IEEE 754 is PRESUMED (log 12). -/
def Obligations.RoundingGivesANearestValue : Prop :=
  ∀ (fmt : FpFormat) (num den : Nat), 0 < den →
    (∃ m e, m ≤ 2 ^ fpPrecision fmt ∧ fpMinShift fmt ≤ e ∧ roundUnits fmt num den = m * 2 ^ e) ∧
    (∀ m e, m < 2 ^ fpPrecision fmt → fpMinShift fmt ≤ e →
      ((roundUnits fmt num den * den : Nat) - (num : Int)).natAbs ≤ ((m * 2 ^ e * den : Nat) - (num : Int)).natAbs) ∧
    (∀ m e, m ≤ 2 ^ fpPrecision fmt → fpMinShift fmt ≤ e → m * 2 ^ e ≠ roundUnits fmt num den →
      ((m * 2 ^ e * den : Nat) - (num : Int)).natAbs = ((roundUnits fmt num den * den : Nat) - (num : Int)).natAbs →
      ∃ m' e', m' ≤ 2 ^ fpPrecision fmt ∧ fpMinShift fmt ≤ e' ∧ roundUnits fmt num den = m' * 2 ^ e' ∧ m' % 2 = 0 ∧
        ((m * 2 ^ e : Nat) - (roundUnits fmt num den : Int)).natAbs = 2 ^ e')

/-- R56: a binary64 pattern that is not a NaN is the pattern of its value. -/
def Obligations.PatternOfItsValue : Prop :=
  ∀ b : RealBits, fpOfBits b ≠ .nan → fpToBits (fpOfBits b) = b

/-- R23: the conversion of an integer of magnitude at most 65536 is exact in both formats. -/
def Obligations.IntegerConversionIsExact : Prop :=
  ∀ (fmt : FpFormat) (n : Int), n.natAbs ≤ 65536 →
    fpOfBits (toFp fmt n) = .finite (decide (n < 0)) (n.natAbs * 2 ^ 1074)

/-! ### The whole machine -/

/-- The invariant of Safety.lean holds at reset. -/
def Obligations.InvariantHoldsAtReset : Prop := State.reset.Inv

/-- Every step from a state that meets the invariant leads to a state that meets it (R33, R35, R36, R37, R41, R42, R58, R61). -/
def Obligations.EveryStepKeepsTheInvariant : Prop :=
  ∀ s t : State, s.Inv → step s = .next t → t.Inv

/-- R111: an error other than TransportError changes nothing but STATUS and ERR_STICKY (and ends the command). -/
def Obligations.CheckErrorsChangeOnlyTheErrorRecord : Prop :=
  ∀ (i : Instr) (s t : State), exec i s = .next t → t.busy = false → t.regs.status ≠ 0#4 → t.regs.status ≠ 1#4 →
    t = s.completesError s.regs t.regs.status [] s.writeAnswers s.readAnswers

/-- R116: a bus write or read that fails raises TransportError and BusBegin cannot; a command reports it exactly when its last
event failed, and no event follows that one. -/
def Obligations.TransportErrorEndsTheCommand : Prop :=
  (∀ bytes s, s.nextWriteOutcome = .err → ∃ t, busWrite bytes s = .raised .transportError t) ∧
  (∀ s, s.nextReadOutcome = .err → ∃ t, busRead s = .raised .transportError t) ∧
  (∀ s, ∃ t, busBegin s = .returned () t) ∧
  ∀ (i : Instr) (s t : State), exec i s = .next t → t.busy = false →
    (t.regs.status = 1#4 → ∃ (events : List BusEvent) (e : BusEvent), t.trace = s.trace ++ events ++ [e] ∧ e.failed = true ∧
      ∀ x ∈ events, x.succeeded = true) ∧
    (t.regs.status ≠ 1#4 → ∃ events, t.trace = s.trace ++ events ∧ ∀ x ∈ events, x.succeeded = true)

/-- R42: a step that is no reset sets in ERR_STICKY at most the bit of the code it reports and clears none, bit 0 reads 0, and the
hardware reset clears the register. -/
def Obligations.StickyRecordOnlyGrows : Prop :=
  ∀ s t : State, s.Inv → step s = .next t →
    t.regs.errSticky.getLsbD 0 = false ∧
    (s.rst = true → t.regs.errSticky = 0#9) ∧
    (s.rst = false →
      (t.regs.errSticky = s.regs.errSticky ∧ (t.done = true → t.regs.status = 0#4)) ∨
      (t.done = true ∧ 1 ≤ t.regs.status.toNat ∧ t.regs.status.toNat ≤ 8 ∧
        t.regs.errSticky = s.regs.errSticky ||| (1#9 <<< t.regs.status.toNat)))

/-- R33, R35, R36, R37, R39: each register file is written by the commands its rule lists (and emptied by INIT) and by no other. -/
def Obligations.RegisterFilesHaveTheListedWriters : Prop :=
  ∀ (i : Instr) (s t : State), exec i s = .next t →
    (writesCfg i = false → t.regs.cfg = s.regs.cfg) ∧
    (writesSavedMode i = false → t.regs.savedMode = s.regs.savedMode) ∧
    (writesCalibration i = false → t.regs.cal = s.regs.cal ∧ t.regs.calValue = s.regs.calValue) ∧
    (writesSnapshot i = false → t.regs.snap = s.regs.snap) ∧
    (writesReadData i = false → t.regs.rdata = s.regs.rdata)

/-- R58, R61: whatever the command and the outcomes, the trace grows, and only by pointer writes, 3-byte writes to a read-write
register, and 2-byte reads, all to DEV_ADDR. -/
def Obligations.OnlyAllowedTransactionsAreIssued : Prop :=
  ∀ (i : Instr) (s t : State), exec i s = .next t →
    ∃ events, t.trace = s.trace ++ events ∧
      ∀ e ∈ events,
        e = .begin ∨
        (∃ a o, e = .wr s.params.devAddr [a] o ∧ a.toNat ≤ 0x05) ∨
        (∃ a h l o, e = .wr s.params.devAddr [a, h, l] o ∧ (a = 0x00#8 ∨ a = 0x05#8)) ∨
        (∃ o, e = .rd s.params.devAddr o)

/-- R7, R24, R47: no step writes a parameter, and a step that is no reset never takes an event out of the trace (R52). -/
def Obligations.StepKeepsParametersAndHistory : Prop :=
  ∀ s t : State, step s = .next t →
    t.params = s.params ∧ (s.rst = false → ∃ events, t.trace = s.trace ++ events)

/-- R38, R113: no command depends on the snapshot, its flags, STATUS or ERR_STICKY: two states that differ only there run any
command alike. -/
def Obligations.NoCommandReadsFlagsOrErrorRecord : Prop :=
  ∀ (i : Instr) (s s' t t' : State), s.withoutRecords = s'.withoutRecords →
    exec i s = .next t → exec i s' = .next t' →
    t.withoutRecords = t'.withoutRecords ∧ (t.busy = false → t.regs.status = t'.regs.status)

/-- R100: STANDBY then RESUME, both written, restores the config word unless the mode was already power-down; then RESUME writes
SAVED_MODE. -/
def Obligations.StandbyThenResumeRestoresTheWord : Prop :=
  ∀ (s : State) (ws : List WriteOutcome), s.Inv → s.writeAnswers = .ack :: .ack :: ws →
    ∃ t u, exec .standby s = .next t ∧ exec .resume t = .next u ∧
      t.regs.status = 0#4 ∧ u.regs.status = 0#4 ∧
      (s.regs.cfg.mode ≠ s.params.powerDownCode → pack u.regs.cfg = pack s.regs.cfg) ∧
      (s.regs.cfg.mode = s.params.powerDownCode →
        u.regs.cfg = { s.regs.cfg with mode := s.regs.savedMode } ∧ pack u.regs.cfg ≠ pack s.regs.cfg)

/-! ### The assembler -/

/-- R90: the two pseudo-instructions: CONFIGDEF is CONFIGW 0x399F and leaves CAL_VALID and the snapshot; PWRDN is SETMODE
POWER_DOWN_CODE, whose effect is STANDBY's. What R90 says of SAVED_MODE after CONFIGDEF is left out: the expansion writes it
(R95, log 25). -/
def Obligations.PseudoInstructionsExpand : Prop :=
  ∀ p : Params,
    assemble p .configdef = assemble p (.configw 0x399F) ∧
    assemble p .pwrdn = assemble p (.setmode p.powerDownCode.toNat) ∧
    (∀ s : State, exec (.setMode s.params.powerDownCode) s = exec .standby s) ∧
    (∀ s t : State, exec (.applyConfig (unpack 0x399F#16)) s = .next t →
      t.regs.cal = s.regs.cal ∧ t.regs.snap = s.regs.snap)

/-- R89: every line whose operands fit assembles to the encoded words of the command it stands for, and one whose operands do not
fit emits nothing. -/
def Obligations.AssemblerEmitsTheEncodedCommand : Prop :=
  ∀ (p : Params) (l : AsmLine),
    (l.wellFormed = true → assemble p l = some (encode (l.command p))) ∧
    (l.wellFormed = false → assemble p l = none)

/-! ### The output ports -/

/-- R28, R34, R68: what each output port shows, whether its register holds a value or not. A read of a register while its valid
flag is 0 is refused (it answers none); of what its port then shows the statement says nothing (log 15, log 27). -/
def Obligations.OutputPortsShowTheirRegisters : Prop :=
  State.reset.cfgWordPort = 0x399F#16 ∧
  ∀ s : State,
    s.cmdReady = !s.busy ∧ s.busyPort = s.busy ∧ s.donePort = s.done ∧ s.statusPort = s.ports.status ∧
    s.errStickyPort = s.ports.errSticky ∧ s.cfgWordPort = pack s.ports.cfg ∧ s.savedModePort = s.ports.savedMode ∧
    s.calValuePort = s.ports.calValue ∧
    (s.rdataValidPort = true → ∃ w, s.ports.rdata = some w ∧ s.ports.readRdata = some w ∧ s.rdataPort = w) ∧
    (s.calValidPort = true → ∃ c, s.ports.cal = some c ∧
      ∀ reg, s.ports.readCalResult reg = some (reg c) ∧ s.calResultPort reg = reg c) ∧
    (s.snapValidPort = true → ∃ n, s.ports.snap = some n ∧
      ∀ (α : Type) (reg : Snapshot → α), s.ports.readSnapshot reg = some (reg n) ∧ s.snapshotPort reg = reg n) ∧
    (s.rdataValidPort = false → s.ports.readRdata = none) ∧
    (s.calValidPort = false → ∀ reg, s.ports.readCalResult reg = none) ∧
    (s.snapValidPort = false → ∀ (α : Type) (reg : Snapshot → α), s.ports.readSnapshot reg = none)

/-- R26, R34, R68, R144: a completed command's registers are on the output ports, and cmd_ready is 1; a command that has not
completed shows the ports of before it, and cmd_ready is 0. -/
def Obligations.OutputPortsFollowTheCompletedCommand : Prop :=
  ∀ (i : Instr) (s t : State), exec i s = .next t →
    (t.busy = false →
      t.cmdReady = true ∧ t.cfgWordPort = pack t.regs.cfg ∧ t.savedModePort = t.regs.savedMode ∧
      t.statusPort = t.regs.status ∧ t.errStickyPort = t.regs.errSticky ∧ t.calValuePort = t.regs.calValue ∧
      t.rdataValidPort = t.regs.rdataValid ∧ t.calValidPort = t.regs.calValid ∧ t.snapValidPort = t.regs.snapValid ∧
      (∀ w, t.regs.rdata = some w → t.rdataPort = w) ∧
      (∀ c reg, t.regs.cal = some c → t.calResultPort reg = reg c) ∧
      (∀ n (α : Type) (reg : Snapshot → α), t.regs.snap = some n → t.snapshotPort reg = reg n)) ∧
    (t.busy = true →
      t.cmdReady = false ∧ t.cfgWordPort = s.cfgWordPort ∧ t.savedModePort = s.savedModePort ∧
      t.statusPort = s.statusPort ∧ t.errStickyPort = s.errStickyPort ∧ t.calValuePort = s.calValuePort ∧
      t.rdataValidPort = s.rdataValidPort ∧ t.calValidPort = s.calValidPort ∧ t.snapValidPort = s.snapValidPort ∧
      (s.rdataValidPort = true → t.rdataPort = s.rdataPort) ∧
      (∀ reg, s.calValidPort = true → t.calResultPort reg = s.calResultPort reg) ∧
      (∀ (α : Type) (reg : Snapshot → α), s.snapValidPort = true → t.snapshotPort reg = s.snapshotPort reg))

/-- R82, R83, R84, R85: the words of the other four registers: Power and Calibration unsigned, Bus Voltage by BusDecode, Config by
Unpack. -/
def Obligations.UnsignedBusAndConfigWordsReadAsTheirFormats : Prop :=
  (∀ (w : Word) (a : Byte) (reg : DeviceReg) (acc : Access) (fmt : WordFormat), regDecode a = some (reg, acc, fmt) →
    (reg = .power ∨ reg = .calibration → fmt.interpret w = .integer (w.toNat : Int) ∧ w.toNat ≤ 65535) ∧
    (reg = .busVoltage →
      fmt.interpret w = .bus (busDecode w).value (busDecode w).cnvr (busDecode w).ovf) ∧
    (reg = .config → fmt.interpret w = .fields (unpack w))) ∧
  WordFormat.unsigned.interpret 0xFFFF#16 = .integer 65535

/-! ### MEASURE cut short -/

/-- R107, V-MEAS-3, V-MEAS-4: a MEASURE whose event k of the nine fails or is never answered: the trace is events 1 to k in order,
the k-th with its outcome, the registers but the error record are unchanged, and the later transactions are not issued. A row of
either list is the number of events before the transaction, the transaction, and the numbers of writes and of reads answered
before it. -/
def Obligations.MeasureStopsAtItsFirstUnsuccessfulTransaction : Prop :=
  ∀ (s : State) (c : CalResult) (s0 s1 u0 u1 c0 c1 p0 p1 : Byte) (ws : List WriteOutcome) (rs : List ReadOutcome),
    s.regs.cal = some c →
    let answers : List ReadOutcome := [.data s0 s1, .data u0 u1, .data c0 c1, .data p0 p1]
    let nine : List BusEvent :=
      [s.pointerEvent 0x01#8 .ack, s.readEvent (.data s0 s1), s.pointerEvent 0x02#8 .ack, s.readEvent (.data u0 u1),
        s.writeEvent 0x05#8 s.regs.calValue .ack, s.pointerEvent 0x04#8 .ack, s.readEvent (.data c0 c1),
        s.pointerEvent 0x03#8 .ack, s.readEvent (.data p0 p1)]
    let writes : List (Nat × (WriteOutcome → BusEvent) × Nat × Nat) :=
      [(0, s.pointerEvent 0x01#8, 0, 0), (2, s.pointerEvent 0x02#8, 1, 1),
        (4, s.writeEvent 0x05#8 s.regs.calValue, 2, 2), (5, s.pointerEvent 0x04#8, 3, 2), (7, s.pointerEvent 0x03#8, 4, 3)]
    let reads : List (Nat × Nat × Nat) := [(1, 1, 0), (3, 2, 1), (6, 4, 2), (8, 5, 3)]
    (∀ row ∈ writes, s.readAnswers = answers.take row.2.2.2 ++ rs →
      (s.writeAnswers = List.replicate row.2.2.1 .ack ++ .err :: ws →
        exec .measure s = .next (s.completesError s.regs 1#4 (nine.take row.1 ++ [row.2.1 .err]) ws rs)) ∧
      (s.writeAnswers = List.replicate row.2.2.1 .ack ++ .noAnswer :: ws →
        exec .measure s = .next (s.staysStuck s.regs (nine.take row.1 ++ [row.2.1 .noAnswer]) ws rs))) ∧
    (∀ row ∈ reads, s.writeAnswers = List.replicate row.2.1 .ack ++ ws →
      (s.readAnswers = answers.take row.2.2 ++ .err :: rs →
        exec .measure s = .next (s.completesError s.regs 1#4 (nine.take row.1 ++ [s.readEvent .err]) ws rs)) ∧
      (s.readAnswers = answers.take row.2.2 ++ .noAnswer :: rs →
        exec .measure s = .next (s.staysStuck s.regs (nine.take row.1 ++ [s.readEvent .noAnswer]) ws rs)))

/-! ### Rounding and overflow of the operations -/

/-- R18, R23: a product, quotient or sum of finite values is the exact one, in units of 2^-1074, rounded once; a nonzero value over
zero is an infinity. The content of IEEE 754 is PRESUMED (log 12). -/
def Obligations.OperationsRoundTheExactResultOnce : Prop :=
  ∀ (fmt : FpFormat) (a b : RealBits) (sa sb : Bool) (x y : Nat),
    fpOfBits a = .finite sa x → fpOfBits b = .finite sb y →
    fpOfBits (fmul fmt a b) = fpRound fmt (sa != sb) (x * y) (2 ^ 1074) ∧
    (0 < y → fpOfBits (fdiv fmt a b) = fpRound fmt (sa != sb) (x * 2 ^ 1074) y) ∧
    (0 < x → y = 0 → fpOfBits (fdiv fmt a b) = .inf (sa != sb)) ∧
    (signedUnits sa x + signedUnits sb y ≠ 0 → fpOfBits (fadd fmt a b) =
      fpRound fmt (decide (signedUnits sa x + signedUnits sb y < 0)) (signedUnits sa x + signedUnits sb y).natAbs 1)

/-- R18: the rounded result is an infinity exactly when the exact one is at least half a unit in the last place above the largest
finite value, and the nearest finite value otherwise: 2^1024 - 2^970 in binary64, 2^128 - 2^103 in binary32, in units of 2^-1074.
The content of IEEE 754 is PRESUMED (log 12). -/
def Obligations.OverflowGivesAnInfinity : Prop :=
  ∀ (neg : Bool) (num den : Nat), 0 < den →
    fpRound .binary64 neg num den =
      (if (2 ^ 2098 - 2 ^ 2044) * den ≤ num then .inf neg else .finite neg (roundUnits .binary64 num den)) ∧
    fpRound .binary32 neg num den =
      (if (2 ^ 1202 - 2 ^ 1177) * den ≤ num then .inf neg else .finite neg (roundUnits .binary32 num den))
end

