-- ==== Sys2Proof/Laws/State.lean ====
section
/-! SUPPORT. One lemma per field per update of State, so that no proof unfolds a record update. -/

namespace Sys2Proof.Machine

/-! ### A register write -/

@[simp] theorem State.setRegs_regs (s : State) (r : Regs) : (s.setRegs r).regs = r := rfl
@[simp] theorem State.setRegs_busy (s : State) (r : Regs) : (s.setRegs r).busy = s.busy := rfl
@[simp] theorem State.setRegs_autoInit (s : State) (r : Regs) : (s.setRegs r).autoInit = s.autoInit := rfl
@[simp] theorem State.setRegs_cw (s : State) (r : Regs) : (s.setRegs r).cw = s.cw := rfl
@[simp] theorem State.setRegs_cr (s : State) (r : Regs) : (s.setRegs r).cr = s.cr := rfl
@[simp] theorem State.setRegs_done (s : State) (r : Regs) : (s.setRegs r).done = s.done := rfl
@[simp] theorem State.setRegs_ports (s : State) (r : Regs) : (s.setRegs r).ports = s.ports := rfl
@[simp] theorem State.setRegs_trace (s : State) (r : Regs) : (s.setRegs r).trace = s.trace := rfl
@[simp] theorem State.setRegs_rst (s : State) (r : Regs) : (s.setRegs r).rst = s.rst := rfl
@[simp] theorem State.setRegs_offers (s : State) (r : Regs) : (s.setRegs r).offers = s.offers := rfl
@[simp] theorem State.setRegs_writeAnswers (s : State) (r : Regs) : (s.setRegs r).writeAnswers = s.writeAnswers := rfl
@[simp] theorem State.setRegs_readAnswers (s : State) (r : Regs) : (s.setRegs r).readAnswers = s.readAnswers := rfl
@[simp] theorem State.setRegs_freeDraws (s : State) (r : Regs) : (s.setRegs r).freeDraws = s.freeDraws := rfl
@[simp] theorem State.setRegs_params (s : State) (r : Regs) : (s.setRegs r).params = s.params := rfl

/-! ### An event recorded -/

@[simp] theorem State.recordEvent_regs (s : State) (e : BusEvent) : (s.recordEvent e).regs = s.regs := rfl
@[simp] theorem State.recordEvent_busy (s : State) (e : BusEvent) : (s.recordEvent e).busy = s.busy := rfl
@[simp] theorem State.recordEvent_autoInit (s : State) (e : BusEvent) : (s.recordEvent e).autoInit = s.autoInit := rfl
@[simp] theorem State.recordEvent_cw (s : State) (e : BusEvent) : (s.recordEvent e).cw = s.cw := rfl
@[simp] theorem State.recordEvent_cr (s : State) (e : BusEvent) : (s.recordEvent e).cr = s.cr := rfl
@[simp] theorem State.recordEvent_done (s : State) (e : BusEvent) : (s.recordEvent e).done = s.done := rfl
@[simp] theorem State.recordEvent_ports (s : State) (e : BusEvent) : (s.recordEvent e).ports = s.ports := rfl
@[simp] theorem State.recordEvent_trace (s : State) (e : BusEvent) : (s.recordEvent e).trace = s.trace ++ [e] := rfl
@[simp] theorem State.recordEvent_rst (s : State) (e : BusEvent) : (s.recordEvent e).rst = s.rst := rfl
@[simp] theorem State.recordEvent_offers (s : State) (e : BusEvent) : (s.recordEvent e).offers = s.offers := rfl
@[simp] theorem State.recordEvent_writeAnswers (s : State) (e : BusEvent) : (s.recordEvent e).writeAnswers = s.writeAnswers := rfl
@[simp] theorem State.recordEvent_readAnswers (s : State) (e : BusEvent) : (s.recordEvent e).readAnswers = s.readAnswers := rfl
@[simp] theorem State.recordEvent_freeDraws (s : State) (e : BusEvent) : (s.recordEvent e).freeDraws = s.freeDraws := rfl
@[simp] theorem State.recordEvent_params (s : State) (e : BusEvent) : (s.recordEvent e).params = s.params := rfl

/-! ### The start of the frame -/

@[simp] theorem beginCommand_regs (s : State) : (beginCommand s).regs = s.regs := rfl
@[simp] theorem beginCommand_busy (s : State) : (beginCommand s).busy = true := rfl
@[simp] theorem beginCommand_autoInit (s : State) : (beginCommand s).autoInit = s.autoInit := rfl
@[simp] theorem beginCommand_cw (s : State) : (beginCommand s).cw = s.cw := rfl
@[simp] theorem beginCommand_cr (s : State) : (beginCommand s).cr = s.cr := rfl
@[simp] theorem beginCommand_done (s : State) : (beginCommand s).done = false := rfl
@[simp] theorem beginCommand_ports (s : State) : (beginCommand s).ports = s.ports := rfl
@[simp] theorem beginCommand_trace (s : State) : (beginCommand s).trace = s.trace := rfl
@[simp] theorem beginCommand_rst (s : State) : (beginCommand s).rst = s.rst := rfl
@[simp] theorem beginCommand_offers (s : State) : (beginCommand s).offers = s.offers := rfl
@[simp] theorem beginCommand_writeAnswers (s : State) : (beginCommand s).writeAnswers = s.writeAnswers := rfl
@[simp] theorem beginCommand_readAnswers (s : State) : (beginCommand s).readAnswers = s.readAnswers := rfl
@[simp] theorem beginCommand_freeDraws (s : State) : (beginCommand s).freeDraws = s.freeDraws := rfl
@[simp] theorem beginCommand_params (s : State) : (beginCommand s).params = s.params := rfl

/-! ### The end of the frame -/

@[simp] theorem signalDone_regs (s : State) : (signalDone s).regs = s.regs := rfl
@[simp] theorem signalDone_busy (s : State) : (signalDone s).busy = false := rfl
@[simp] theorem signalDone_autoInit (s : State) : (signalDone s).autoInit = s.autoInit := rfl
@[simp] theorem signalDone_cw (s : State) : (signalDone s).cw = s.cw := rfl
@[simp] theorem signalDone_cr (s : State) : (signalDone s).cr = s.cr := rfl
@[simp] theorem signalDone_done (s : State) : (signalDone s).done = true := rfl
@[simp] theorem signalDone_ports (s : State) : (signalDone s).ports = s.regs := rfl
@[simp] theorem signalDone_trace (s : State) : (signalDone s).trace = s.trace := rfl
@[simp] theorem signalDone_rst (s : State) : (signalDone s).rst = s.rst := rfl
@[simp] theorem signalDone_offers (s : State) : (signalDone s).offers = s.offers := rfl
@[simp] theorem signalDone_writeAnswers (s : State) : (signalDone s).writeAnswers = s.writeAnswers := rfl
@[simp] theorem signalDone_readAnswers (s : State) : (signalDone s).readAnswers = s.readAnswers := rfl
@[simp] theorem signalDone_freeDraws (s : State) : (signalDone s).freeDraws = s.freeDraws := rfl
@[simp] theorem signalDone_params (s : State) : (signalDone s).params = s.params := rfl

/-! ### Success -/

@[simp] theorem completeOk_regs (s : State) : (completeOk s).regs = { s.regs with status := 0#4 } := rfl
@[simp] theorem completeOk_busy (s : State) : (completeOk s).busy = false := rfl
@[simp] theorem completeOk_autoInit (s : State) : (completeOk s).autoInit = s.autoInit := rfl
@[simp] theorem completeOk_cw (s : State) : (completeOk s).cw = s.cw := rfl
@[simp] theorem completeOk_cr (s : State) : (completeOk s).cr = s.cr := rfl
@[simp] theorem completeOk_done (s : State) : (completeOk s).done = true := rfl
@[simp] theorem completeOk_ports (s : State) : (completeOk s).ports = { s.regs with status := 0#4 } := rfl
@[simp] theorem completeOk_trace (s : State) : (completeOk s).trace = s.trace := rfl
@[simp] theorem completeOk_rst (s : State) : (completeOk s).rst = s.rst := rfl
@[simp] theorem completeOk_offers (s : State) : (completeOk s).offers = s.offers := rfl
@[simp] theorem completeOk_writeAnswers (s : State) : (completeOk s).writeAnswers = s.writeAnswers := rfl
@[simp] theorem completeOk_readAnswers (s : State) : (completeOk s).readAnswers = s.readAnswers := rfl
@[simp] theorem completeOk_freeDraws (s : State) : (completeOk s).freeDraws = s.freeDraws := rfl
@[simp] theorem completeOk_params (s : State) : (completeOk s).params = s.params := rfl

/-! ### An error taken -/

@[simp] theorem completeWithError_regs (e : CommandError) (s : State) : (completeWithError e s).regs =
    { s.regs with status := e.code, errSticky := setSticky s.regs.errSticky e.code } := rfl
@[simp] theorem completeWithError_busy (e : CommandError) (s : State) : (completeWithError e s).busy = false := rfl
@[simp] theorem completeWithError_autoInit (e : CommandError) (s : State) : (completeWithError e s).autoInit = s.autoInit := rfl
@[simp] theorem completeWithError_cw (e : CommandError) (s : State) : (completeWithError e s).cw = s.cw := rfl
@[simp] theorem completeWithError_cr (e : CommandError) (s : State) : (completeWithError e s).cr = s.cr := rfl
@[simp] theorem completeWithError_done (e : CommandError) (s : State) : (completeWithError e s).done = true := rfl
@[simp] theorem completeWithError_ports (e : CommandError) (s : State) : (completeWithError e s).ports =
    { s.regs with status := e.code, errSticky := setSticky s.regs.errSticky e.code } := rfl
@[simp] theorem completeWithError_trace (e : CommandError) (s : State) : (completeWithError e s).trace = s.trace := rfl
@[simp] theorem completeWithError_rst (e : CommandError) (s : State) : (completeWithError e s).rst = s.rst := rfl
@[simp] theorem completeWithError_offers (e : CommandError) (s : State) : (completeWithError e s).offers = s.offers := rfl
@[simp] theorem completeWithError_writeAnswers (e : CommandError) (s : State) : (completeWithError e s).writeAnswers = s.writeAnswers := rfl
@[simp] theorem completeWithError_readAnswers (e : CommandError) (s : State) : (completeWithError e s).readAnswers = s.readAnswers := rfl
@[simp] theorem completeWithError_freeDraws (e : CommandError) (s : State) : (completeWithError e s).freeDraws = s.freeDraws := rfl
@[simp] theorem completeWithError_params (e : CommandError) (s : State) : (completeWithError e s).params = s.params := rfl

/-! ### Acceptance -/

@[simp] theorem acceptCommand_regs (o : PortWords) (rest : List PortWords) (s : State) : (acceptCommand o rest s).regs = s.regs := rfl
@[simp] theorem acceptCommand_busy (o : PortWords) (rest : List PortWords) (s : State) : (acceptCommand o rest s).busy = true := rfl
@[simp] theorem acceptCommand_autoInit (o : PortWords) (rest : List PortWords) (s : State) : (acceptCommand o rest s).autoInit = s.autoInit := rfl
@[simp] theorem acceptCommand_cw (o : PortWords) (rest : List PortWords) (s : State) : (acceptCommand o rest s).cw = o.word := rfl
@[simp] theorem acceptCommand_cr (o : PortWords) (rest : List PortWords) (s : State) : (acceptCommand o rest s).cr = o.real := rfl
@[simp] theorem acceptCommand_done (o : PortWords) (rest : List PortWords) (s : State) : (acceptCommand o rest s).done = false := rfl
@[simp] theorem acceptCommand_ports (o : PortWords) (rest : List PortWords) (s : State) : (acceptCommand o rest s).ports = s.ports := rfl
@[simp] theorem acceptCommand_trace (o : PortWords) (rest : List PortWords) (s : State) : (acceptCommand o rest s).trace = s.trace := rfl
@[simp] theorem acceptCommand_rst (o : PortWords) (rest : List PortWords) (s : State) : (acceptCommand o rest s).rst = s.rst := rfl
@[simp] theorem acceptCommand_offers (o : PortWords) (rest : List PortWords) (s : State) : (acceptCommand o rest s).offers = rest := rfl
@[simp] theorem acceptCommand_writeAnswers (o : PortWords) (rest : List PortWords) (s : State) : (acceptCommand o rest s).writeAnswers = s.writeAnswers := rfl
@[simp] theorem acceptCommand_readAnswers (o : PortWords) (rest : List PortWords) (s : State) : (acceptCommand o rest s).readAnswers = s.readAnswers := rfl
@[simp] theorem acceptCommand_freeDraws (o : PortWords) (rest : List PortWords) (s : State) : (acceptCommand o rest s).freeDraws = s.freeDraws := rfl
@[simp] theorem acceptCommand_params (o : PortWords) (rest : List PortWords) (s : State) : (acceptCommand o rest s).params = s.params := rfl

/-! ### Waiting -/

@[simp] theorem waitForCommand_regs (s : State) : (waitForCommand s).regs = s.regs := rfl
@[simp] theorem waitForCommand_busy (s : State) : (waitForCommand s).busy = s.busy := rfl
@[simp] theorem waitForCommand_autoInit (s : State) : (waitForCommand s).autoInit = s.autoInit := rfl
@[simp] theorem waitForCommand_cw (s : State) : (waitForCommand s).cw = s.cw := rfl
@[simp] theorem waitForCommand_cr (s : State) : (waitForCommand s).cr = s.cr := rfl
@[simp] theorem waitForCommand_done (s : State) : (waitForCommand s).done = false := rfl
@[simp] theorem waitForCommand_ports (s : State) : (waitForCommand s).ports = s.ports := rfl
@[simp] theorem waitForCommand_trace (s : State) : (waitForCommand s).trace = s.trace := rfl
@[simp] theorem waitForCommand_rst (s : State) : (waitForCommand s).rst = s.rst := rfl
@[simp] theorem waitForCommand_offers (s : State) : (waitForCommand s).offers = s.offers := rfl
@[simp] theorem waitForCommand_writeAnswers (s : State) : (waitForCommand s).writeAnswers = s.writeAnswers := rfl
@[simp] theorem waitForCommand_readAnswers (s : State) : (waitForCommand s).readAnswers = s.readAnswers := rfl
@[simp] theorem waitForCommand_freeDraws (s : State) : (waitForCommand s).freeDraws = s.freeDraws := rfl
@[simp] theorem waitForCommand_params (s : State) : (waitForCommand s).params = s.params := rfl

/-! ### The start of the automatic INIT -/

@[simp] theorem startAutoInit_regs (s : State) : (startAutoInit s).regs = s.regs := rfl
@[simp] theorem startAutoInit_busy (s : State) : (startAutoInit s).busy = s.busy := rfl
@[simp] theorem startAutoInit_autoInit (s : State) : (startAutoInit s).autoInit = false := rfl
@[simp] theorem startAutoInit_cw (s : State) : (startAutoInit s).cw = s.cw := rfl
@[simp] theorem startAutoInit_cr (s : State) : (startAutoInit s).cr = s.cr := rfl
@[simp] theorem startAutoInit_done (s : State) : (startAutoInit s).done = s.done := rfl
@[simp] theorem startAutoInit_ports (s : State) : (startAutoInit s).ports = s.ports := rfl
@[simp] theorem startAutoInit_trace (s : State) : (startAutoInit s).trace = s.trace := rfl
@[simp] theorem startAutoInit_rst (s : State) : (startAutoInit s).rst = s.rst := rfl
@[simp] theorem startAutoInit_offers (s : State) : (startAutoInit s).offers = s.offers := rfl
@[simp] theorem startAutoInit_writeAnswers (s : State) : (startAutoInit s).writeAnswers = s.writeAnswers := rfl
@[simp] theorem startAutoInit_readAnswers (s : State) : (startAutoInit s).readAnswers = s.readAnswers := rfl
@[simp] theorem startAutoInit_freeDraws (s : State) : (startAutoInit s).freeDraws = s.freeDraws := rfl
@[simp] theorem startAutoInit_params (s : State) : (startAutoInit s).params = s.params := rfl

/-! ### The hardware reset -/

@[simp] theorem hardwareReset_regs (s : State) : (hardwareReset s).regs = Regs.reset := rfl
@[simp] theorem hardwareReset_busy (s : State) : (hardwareReset s).busy = true := rfl
@[simp] theorem hardwareReset_autoInit (s : State) : (hardwareReset s).autoInit = true := rfl
@[simp] theorem hardwareReset_cw (s : State) : (hardwareReset s).cw = 0#32 := rfl
@[simp] theorem hardwareReset_cr (s : State) : (hardwareReset s).cr = 0#64 := rfl
@[simp] theorem hardwareReset_done (s : State) : (hardwareReset s).done = false := rfl
@[simp] theorem hardwareReset_ports (s : State) : (hardwareReset s).ports = Regs.reset := rfl
@[simp] theorem hardwareReset_trace (s : State) : (hardwareReset s).trace = [] := rfl
@[simp] theorem hardwareReset_rst (s : State) : (hardwareReset s).rst = false := rfl
@[simp] theorem hardwareReset_offers (s : State) : (hardwareReset s).offers = s.offers := rfl
@[simp] theorem hardwareReset_writeAnswers (s : State) : (hardwareReset s).writeAnswers = s.writeAnswers := rfl
@[simp] theorem hardwareReset_readAnswers (s : State) : (hardwareReset s).readAnswers = s.readAnswers := rfl
@[simp] theorem hardwareReset_freeDraws (s : State) : (hardwareReset s).freeDraws = s.freeDraws := rfl
@[simp] theorem hardwareReset_params (s : State) : (hardwareReset s).params = s.params := rfl

/-! ### A write outcome drawn -/

@[simp] theorem State.dropWriteOutcome_regs (s : State) : s.dropWriteOutcome.regs = s.regs := by
  unfold State.dropWriteOutcome; split <;> rfl
@[simp] theorem State.dropWriteOutcome_busy (s : State) : s.dropWriteOutcome.busy = s.busy := by
  unfold State.dropWriteOutcome; split <;> rfl
@[simp] theorem State.dropWriteOutcome_autoInit (s : State) : s.dropWriteOutcome.autoInit = s.autoInit := by
  unfold State.dropWriteOutcome; split <;> rfl
@[simp] theorem State.dropWriteOutcome_cw (s : State) : s.dropWriteOutcome.cw = s.cw := by
  unfold State.dropWriteOutcome; split <;> rfl
@[simp] theorem State.dropWriteOutcome_cr (s : State) : s.dropWriteOutcome.cr = s.cr := by
  unfold State.dropWriteOutcome; split <;> rfl
@[simp] theorem State.dropWriteOutcome_done (s : State) : s.dropWriteOutcome.done = s.done := by
  unfold State.dropWriteOutcome; split <;> rfl
@[simp] theorem State.dropWriteOutcome_ports (s : State) : s.dropWriteOutcome.ports = s.ports := by
  unfold State.dropWriteOutcome; split <;> rfl
@[simp] theorem State.dropWriteOutcome_trace (s : State) : s.dropWriteOutcome.trace = s.trace := by
  unfold State.dropWriteOutcome; split <;> rfl
@[simp] theorem State.dropWriteOutcome_rst (s : State) : s.dropWriteOutcome.rst = s.rst := by
  unfold State.dropWriteOutcome; split <;> rfl
@[simp] theorem State.dropWriteOutcome_offers (s : State) : s.dropWriteOutcome.offers = s.offers := by
  unfold State.dropWriteOutcome; split <;> rfl
@[simp] theorem State.dropWriteOutcome_readAnswers (s : State) : s.dropWriteOutcome.readAnswers = s.readAnswers := by
  unfold State.dropWriteOutcome; split <;> rfl
@[simp] theorem State.dropWriteOutcome_params (s : State) : s.dropWriteOutcome.params = s.params := by
  unfold State.dropWriteOutcome; split <;> rfl

/-! ### A read outcome drawn -/

@[simp] theorem State.dropReadOutcome_regs (s : State) : s.dropReadOutcome.regs = s.regs := by
  unfold State.dropReadOutcome; split <;> rfl
@[simp] theorem State.dropReadOutcome_busy (s : State) : s.dropReadOutcome.busy = s.busy := by
  unfold State.dropReadOutcome; split <;> rfl
@[simp] theorem State.dropReadOutcome_autoInit (s : State) : s.dropReadOutcome.autoInit = s.autoInit := by
  unfold State.dropReadOutcome; split <;> rfl
@[simp] theorem State.dropReadOutcome_cw (s : State) : s.dropReadOutcome.cw = s.cw := by
  unfold State.dropReadOutcome; split <;> rfl
@[simp] theorem State.dropReadOutcome_cr (s : State) : s.dropReadOutcome.cr = s.cr := by
  unfold State.dropReadOutcome; split <;> rfl
@[simp] theorem State.dropReadOutcome_done (s : State) : s.dropReadOutcome.done = s.done := by
  unfold State.dropReadOutcome; split <;> rfl
@[simp] theorem State.dropReadOutcome_ports (s : State) : s.dropReadOutcome.ports = s.ports := by
  unfold State.dropReadOutcome; split <;> rfl
@[simp] theorem State.dropReadOutcome_trace (s : State) : s.dropReadOutcome.trace = s.trace := by
  unfold State.dropReadOutcome; split <;> rfl
@[simp] theorem State.dropReadOutcome_rst (s : State) : s.dropReadOutcome.rst = s.rst := by
  unfold State.dropReadOutcome; split <;> rfl
@[simp] theorem State.dropReadOutcome_offers (s : State) : s.dropReadOutcome.offers = s.offers := by
  unfold State.dropReadOutcome; split <;> rfl
@[simp] theorem State.dropReadOutcome_writeAnswers (s : State) : s.dropReadOutcome.writeAnswers = s.writeAnswers := by
  unfold State.dropReadOutcome; split <;> rfl
@[simp] theorem State.dropReadOutcome_params (s : State) : s.dropReadOutcome.params = s.params := by
  unfold State.dropReadOutcome; split <;> rfl

end Sys2Proof.Machine
end

