-- ==== Sys2Proof/Laws/Run.lean ====
section
/-! SUPPORT. How command bodies end, and the bus primitives: one lemma per operation and outcome, and one lemma that says
once everything a bus primitive can do to the state. -/

namespace Sys2Proof.Machine

/-! ### Sequencing -/

@[simp] theorem Run.andThen_returned {α β : Type} (a : α) (s : State) (k : α → State → Run β) :
    (Run.returned a s).andThen k = k a s := rfl

@[simp] theorem Run.andThen_raised {α β : Type} (e : CommandError) (s : State) (k : α → State → Run β) :
    (Run.raised e s).andThen k = .raised e s := rfl

@[simp] theorem Run.andThen_hung {α β : Type} (s : State) (k : α → State → Run β) :
    (Run.hung s : Run α).andThen k = .hung s := rfl

@[simp] theorem finishCommand_returned (u : Unit) (s : State) : finishCommand (.returned u s) = completeOk s := rfl

@[simp] theorem finishCommand_raised (e : CommandError) (s : State) :
    finishCommand (.raised e s) = completeWithError e s := rfl

@[simp] theorem finishCommand_hung (s : State) : finishCommand (.hung s) = s := rfl

/-! ### The oracle's queues -/

theorem State.nextWriteOutcome_cons {s : State} {o : WriteOutcome} {ws : List WriteOutcome}
    (h : s.writeAnswers = o :: ws) : s.nextWriteOutcome = o := by simp [State.nextWriteOutcome, h]

theorem State.dropWriteOutcome_cons {s : State} {o : WriteOutcome} {ws : List WriteOutcome}
    (h : s.writeAnswers = o :: ws) : s.dropWriteOutcome = { s with writeAnswers := ws } := by
  simp [State.dropWriteOutcome, h]

theorem State.nextReadOutcome_cons {s : State} {o : ReadOutcome} {rs : List ReadOutcome}
    (h : s.readAnswers = o :: rs) : s.nextReadOutcome = o := by simp [State.nextReadOutcome, h]

theorem State.dropReadOutcome_cons {s : State} {o : ReadOutcome} {rs : List ReadOutcome}
    (h : s.readAnswers = o :: rs) : s.dropReadOutcome = { s with readAnswers := rs } := by
  simp [State.dropReadOutcome, h]

/-! ### Bus primitives with a queued outcome -/

/-- A bus write whose outcome is queued (R50). -/
theorem busWrite_of_queued (bytes : List Byte) {s : State} {o : WriteOutcome} {ws : List WriteOutcome}
    (h : s.writeAnswers = o :: ws) :
    busWrite bytes s =
      match o with
      | .ack => .returned () { s with trace := s.trace ++ [.wr s.params.devAddr bytes .ack], writeAnswers := ws }
      | .err => .raised .transportError
          { s with trace := s.trace ++ [.wr s.params.devAddr bytes .err], writeAnswers := ws }
      | .noAnswer => .hung
          { s with trace := s.trace ++ [.wr s.params.devAddr bytes .noAnswer], writeAnswers := ws } := by
  cases o <;>
    simp [busWrite, State.nextWriteOutcome_cons h, State.dropWriteOutcome_cons h, State.recordEvent]

/-- A bus read whose outcome is queued (R51). -/
theorem busRead_of_queued {s : State} {o : ReadOutcome} {rs : List ReadOutcome} (h : s.readAnswers = o :: rs) :
    busRead s =
      match o with
      | .data b0 b1 => .returned (wordOfBytes b0 b1)
          { s with trace := s.trace ++ [.rd s.params.devAddr (.data b0 b1)], readAnswers := rs }
      | .err => .raised .transportError { s with trace := s.trace ++ [.rd s.params.devAddr .err], readAnswers := rs }
      | .noAnswer => .hung { s with trace := s.trace ++ [.rd s.params.devAddr .noAnswer], readAnswers := rs } := by
  cases o <;> simp [busRead, State.nextReadOutcome_cons h, State.dropReadOutcome_cons h, State.recordEvent]

/-- A register read answered throughout (R53). -/
theorem memRead_of_answered (a : Byte) {s : State} {b0 b1 : Byte} {ws : List WriteOutcome} {rs : List ReadOutcome}
    (hw : s.writeAnswers = .ack :: ws) (hr : s.readAnswers = .data b0 b1 :: rs) :
    memRead a s = .returned (wordOfBytes b0 b1)
      { s with
        trace := s.trace ++ [.wr s.params.devAddr [a] .ack, .rd s.params.devAddr (.data b0 b1)]
        writeAnswers := ws
        readAnswers := rs } := by
  unfold memRead
  rw [busWrite_of_queued [a] hw]
  simp only [Run.andThen_returned]
  exact (busRead_of_queued
    (s := { s with trace := s.trace ++ [.wr s.params.devAddr [a] .ack], writeAnswers := ws }) hr).trans (by simp)

/-! ### The three outcomes of an event exclude each other -/

theorem BusEvent.not_pending_of_succeeded {e : BusEvent} (h : e.succeeded = true) : e.pending = false := by
  rcases e with _ | ⟨d, bytes, o⟩ | ⟨d, o⟩ <;> first | rfl | (cases o <;> first | rfl | cases h)

theorem BusEvent.not_pending_of_failed {e : BusEvent} (h : e.failed = true) : e.pending = false := by
  rcases e with _ | ⟨d, bytes, o⟩ | ⟨d, o⟩ <;> first | rfl | (cases o <;> first | rfl | cases h)

theorem BusEvent.not_failed_of_succeeded {e : BusEvent} (h : e.succeeded = true) : e.failed = false := by
  rcases e with _ | ⟨d, bytes, o⟩ | ⟨d, o⟩ <;> first | rfl | (cases o <;> first | rfl | cases h)

/-! ### What any run can do -/

/-- The state a run reached, however it ended. -/
def Run.state {α : Type} : Run α → State
  | .returned _ s => s
  | .raised _ s => s
  | .hung s => s

@[simp] theorem Run.state_returned {α : Type} (a : α) (s : State) : (Run.returned a s).state = s := rfl
@[simp] theorem Run.state_raised {α : Type} (e : CommandError) (s : State) :
    (Run.raised e s : Run α).state = s := rfl
@[simp] theorem Run.state_hung {α : Type} (s : State) : (Run.hung s : Run α).state = s := rfl

/-- The run ended as its last event says (R50, R51): after a returned run every new event succeeded; a raised
`TransportError` or a hang follows an event that failed or is pending, and nothing after it. -/
def Run.EndsAsItsEventsSay {α : Type} (r : Run α) (events : List BusEvent) : Prop :=
  match r with
  | .returned _ _ => ∀ e ∈ events, e.succeeded = true
  | .raised err _ => err = .transportError ∧
      ∃ before last, events = before ++ [last] ∧ (∀ e ∈ before, e.succeeded = true) ∧ last.failed = true
  | .hung _ => ∃ before last, events = before ++ [last] ∧ (∀ e ∈ before, e.succeeded = true) ∧ last.pending = true

/-- Everything a bus access can do: it appends allowed events to the trace and draws oracle answers; registers, ports and
control state are as they were. -/
def BusAccess {α : Type} (s : State) (r : Run α) : Prop :=
  ∃ events ws rs n,
    r.state = { s with trace := s.trace ++ events, writeAnswers := ws, readAnswers := rs, freeDraws := n } ∧
      (∀ e ∈ events, e.allowed s.params.devAddr = true) ∧ r.EndsAsItsEventsSay events

theorem busWrite_access (bytes : List Byte) (s : State)
    (h : ∀ o, (BusEvent.wr s.params.devAddr bytes o).allowed s.params.devAddr = true) :
    BusAccess s (busWrite bytes s) := by
  refine ⟨[.wr s.params.devAddr bytes s.nextWriteOutcome], s.dropWriteOutcome.writeAnswers, s.readAnswers,
    s.dropWriteOutcome.freeDraws, ?_, ?_, ?_⟩
  · unfold busWrite State.dropWriteOutcome State.nextWriteOutcome State.recordEvent
    cases s.writeAnswers <;> simp only <;> split <;> rfl
  · intro e he
    obtain rfl := List.mem_singleton.mp he
    exact h _
  · unfold busWrite
    cases ho : s.nextWriteOutcome with
    | ack => simp [Run.EndsAsItsEventsSay, BusEvent.succeeded]
    | err => exact ⟨rfl, [], _, rfl, by simp, by simp [BusEvent.failed]⟩
    | noAnswer => exact ⟨[], _, rfl, by simp, by simp [BusEvent.pending]⟩

theorem busRead_access (s : State) : BusAccess s (busRead s) := by
  refine ⟨[.rd s.params.devAddr s.nextReadOutcome], s.writeAnswers, s.dropReadOutcome.readAnswers,
    s.dropReadOutcome.freeDraws, ?_, ?_, ?_⟩
  · unfold busRead State.dropReadOutcome State.nextReadOutcome State.recordEvent
    cases s.readAnswers <;> simp only <;> split <;> rfl
  · intro e he
    obtain rfl := List.mem_singleton.mp he
    simp [BusEvent.allowed]
  · unfold busRead
    cases ho : s.nextReadOutcome with
    | data b0 b1 => simp [Run.EndsAsItsEventsSay, BusEvent.succeeded]
    | err => exact ⟨rfl, [], _, rfl, by simp, by simp [BusEvent.failed]⟩
    | noAnswer => exact ⟨[], _, rfl, by simp, by simp [BusEvent.pending]⟩

theorem busBegin_access (s : State) : BusAccess s (busBegin s) :=
  ⟨[.begin], s.writeAnswers, s.readAnswers, s.freeDraws, rfl, by simp [BusEvent.allowed],
    by simp [busBegin, Run.EndsAsItsEventsSay, BusEvent.succeeded]⟩

/-- An access followed by an access is an access. -/
theorem BusAccess.andThen {α β : Type} {s : State} {r : Run α} {k : α → State → Run β} (hr : BusAccess s r)
    (hk : ∀ a t, r = .returned a t → BusAccess t (k a t)) : BusAccess s (r.andThen k) := by
  cases r with
  | returned a t =>
    obtain ⟨ev, ws, rs, n, ht, hal, hend⟩ := hr
    obtain ⟨ev', ws', rs', n', ht', hal', hend'⟩ := hk a t rfl
    simp only [Run.state_returned] at ht
    subst ht
    simp only [Run.EndsAsItsEventsSay] at hend
    refine ⟨ev ++ ev', ws', rs', n', ?_, ?_, ?_⟩
    · rw [Run.andThen_returned, ht']
      simp
    · intro e he
      rcases List.mem_append.mp he with h | h
      · exact hal e h
      · exact hal' e h
    · rw [Run.andThen_returned]
      generalize k a _ = q at hend'
      cases q with
      | returned b u =>
        intro e he
        rcases List.mem_append.mp he with h | h
        · exact hend e h
        · exact hend' e h
      | raised err u =>
        obtain ⟨herr, before, last, rfl, hb, hl⟩ := hend'
        refine ⟨herr, ev ++ before, last, by simp, ?_, hl⟩
        intro e he
        rcases List.mem_append.mp he with h | h
        · exact hend e h
        · exact hb e h
      | hung u =>
        obtain ⟨before, last, rfl, hb, hl⟩ := hend'
        refine ⟨ev ++ before, last, by simp, ?_, hl⟩
        intro e he
        rcases List.mem_append.mp he with h | h
        · exact hend e h
        · exact hb e h
  | raised e t => exact hr
  | hung t => exact hr

theorem memRead_access (a : Byte) (s : State) (ha : a.toNat ≤ 5) : BusAccess s (memRead a s) :=
  (busWrite_access [a] s (by simp [BusEvent.allowed, ha])).andThen fun _ t _ => busRead_access t

theorem memWrite_access (a : Byte) (v : Word) (s : State) (ha : a = 0x00#8 ∨ a = 0x05#8) :
    BusAccess s (memWrite a v s) :=
  busWrite_access _ s (by rcases ha with rfl | rfl <;> simp [BusEvent.allowed, writeBytes])

end Sys2Proof.Machine
end

