-- ==== Sys2Proof/Laws/Exec.lean ====
section
/-! SUPPORT. Every command is its body in the one frame (60_exceptions.md R110), and what the frame makes of each way a
body can end. -/

namespace Sys2Proof.Machine

/-- The body of each command. -/
def bodyOf : Instr → State → Run Unit
  | .init => bodyInit
  | .readReg a => bodyReadReg a
  | .writeReg a v => bodyWriteReg a v
  | .applyConfig f => bodyApplyConfig f
  | .resetDevice => bodyResetDevice
  | .setMode m => bodySetMode m
  | .standby => bodyStandby
  | .resume => bodyResume
  | .calibrate cr => bodyCalibrate cr
  | .measure => bodyMeasure

theorem exec_eq_runFrame (i : Instr) (s : State) : exec i s = runFrame (bodyOf i) s := by cases i <;> rfl

/-- A command's next state is the end of its frame. -/
theorem exec_next_iff {i : Instr} {s t : State} :
    exec i s = .next t ↔ t = finishCommand (bodyOf i (beginCommand s)) := by
  rw [exec_eq_runFrame, runFrame]
  constructor
  · intro h; injection h with h; exact h.symm
  · rintro rfl; rfl

/-- The three ways the frame can end (R110, R125). -/
theorem finishCommand_cases (r : Run Unit) :
    (∃ u s, r = .returned u s ∧ finishCommand r = completeOk s) ∨
    (∃ e s, r = .raised e s ∧ finishCommand r = completeWithError e s) ∨
    (∃ s, r = .hung s ∧ finishCommand r = s) := by
  cases r with
  | returned u s => exact .inl ⟨u, s, rfl, rfl⟩
  | raised e s => exact .inr (.inl ⟨e, s, rfl, rfl⟩)
  | hung s => exact .inr (.inr ⟨s, rfl, rfl⟩)

/-- What one step of the block is (R69, R125, R134, R135). -/
theorem step_cases {s t : State} (h : step s = .next t) :
    (s.rst = true ∧ t = hardwareReset s) ∨
    (s.rst = false ∧ s.busy = true ∧ s.autoInit = true ∧ exec .init (startAutoInit s) = .next t) ∨
    (s.rst = false ∧ s.busy = false ∧ s.offers = [] ∧ t = waitForCommand s) ∨
    (∃ o rest, s.rst = false ∧ s.busy = false ∧ s.offers = o :: rest ∧
      runLatched (acceptCommand o rest s) = .next t) := by
  unfold step at h
  split at h
  · next hr => injection h with h; exact .inl ⟨hr, h.symm⟩
  · next hr =>
    have hr : s.rst = false := by simpa using hr
    split at h
    · next hb =>
      split at h
      · next ha => exact .inr (.inl ⟨hr, hb, ha, h⟩)
      · cases h
    · next hb =>
      have hb : s.busy = false := by simpa using hb
      split at h
      · next ho => injection h with h; exact .inr (.inr (.inl ⟨hr, hb, ho, h.symm⟩))
      · next o rest ho => exact .inr (.inr (.inr ⟨o, rest, hr, hb, ho, h⟩))

/-- The code of an error is one of 1 to 8 (R115). -/
theorem CommandError.code_range (e : CommandError) : 1 ≤ e.code.toNat ∧ e.code.toNat ≤ 8 := by
  cases e <;> simp [CommandError.code]

/-- Setting a sticky bit leaves bit 0 at 0 (R42). -/
theorem setSticky_bit_zero (x : BitVec 9) (c : BitVec 4) : (setSticky x c).getLsbD 0 = false := by
  simp [setSticky]

end Sys2Proof.Machine
end

