-- ==== Sys2Proof/Laws/Bodies.lean ====
section
/-! SUPPORT. Everything a command body can do, said once (60_exceptions.md R110, R111): it raises one of its checks before anything
happened, or it ends as its bus events say, having written only the registers its rule gives it. -/

namespace Sys2Proof.Machine

/-- The registers a body may have reached, by command, from registers r: each case is a write of the command's rule, or
r itself where no write stands. -/
def RegsAfter (p : Params) (r : Regs) : Instr → Regs → Prop
  | .init, q => q = initRegs r
  | .readReg _, q => q = r ∨ ∃ w, q = { r with rdata := some w }
  | .writeReg _ _, q => q = r
  | .applyConfig f, q => adcLegal f.badc = true ∧ adcLegal f.sadc = true ∧
      q = { r with cfg := f, savedMode := savedModeAfter p r.savedMode f.mode }
  | .resetDevice, q => q = r ∨
      q = { r with cfg := { r.cfg with mode := Config.resetMode }, savedMode := Config.resetMode }
  | .setMode m, q => q = { r with cfg := { r.cfg with mode := m }, savedMode := savedModeAfter p r.savedMode m }
  | .standby, q => q = { r with cfg := { r.cfg with mode := p.powerDownCode } }
  | .resume, q => q = { r with cfg := { r.cfg with mode := r.savedMode } }
  | .calibrate cr, q =>
      let res := calResult p.fpFormat r.cfg.range r.cfg.gain (flBits p.fpFormat cr)
      calInRange (calQuotient p.fpFormat res.currentLsb) = true ∧
        q = { r with cal := some res, calValue := calValueOf (calQuotient p.fpFormat res.currentLsb) }
  | .measure, q => q = r ∨ ∃ c ws wb wc wp, r.cal = some c ∧
      q = { r with snap := some (snapshotOf p.fpFormat c ws wb wc wp) }

/-- A run that changed the registers to some q with P q, and otherwise made a bus access. -/
def AccessWriting {α : Type} (P : Regs → Prop) (s : State) (r : Run α) : Prop :=
  ∃ q events ws rs n, P q ∧
    r.state =
      { s with regs := q, trace := s.trace ++ events, writeAnswers := ws, readAnswers := rs, freeDraws := n } ∧
    (∀ e ∈ events, e.allowed s.params.devAddr = true) ∧ r.EndsAsItsEventsSay events

/-- A bus access after a register write. -/
theorem BusAccess.writing {α : Type} {P : Regs → Prop} {s : State} {q : Regs} {r : Run α}
    (h : BusAccess (s.setRegs q) r) (hq : P q) : AccessWriting P s r := by
  obtain ⟨events, ws, rs, n, hs, ha, he⟩ := h
  exact ⟨q, events, ws, rs, n, hq, hs, ha, he⟩

/-- A bus access followed by a register write, which happens only when the access returned. -/
theorem BusAccess.thenWrite {α : Type} {P : Regs → Prop} {s : State} {r : Run α} {f : α → State → Regs}
    (h : BusAccess s r) (hs : P s.regs) (hf : ∀ a t, r = .returned a t → P (f a t)) :
    AccessWriting P s (r.andThen fun a t => .returned () (t.setRegs (f a t))) := by
  obtain ⟨events, ws, rs, n, ht, ha, he⟩ := h
  cases r with
  | returned a t =>
    simp only [Run.state_returned] at ht
    refine ⟨f a t, events, ws, rs, n, hf a t rfl, ?_, ha, he⟩
    simp [ht, State.setRegs]
  | raised e t => exact ⟨s.regs, events, ws, rs, n, hs, ht, ha, he⟩
  | hung t => exact ⟨s.regs, events, ws, rs, n, hs, ht, ha, he⟩

/-- A returned access left the registers and the parameters as they were. -/
theorem BusAccess.returned_eq {α : Type} {s t : State} {r : Run α} {a : α} (h : BusAccess s r)
    (hr : r = .returned a t) : t.regs = s.regs ∧ t.params = s.params := by
  obtain ⟨events, ws, rs, n, ht, -, -⟩ := h
  subst hr
  simp only [Run.state_returned] at ht
  simp [ht]

/-- Sequencing regroups. -/
theorem Run.andThen_assoc {α β γ : Type} (r : Run α) (k : α → State → Run β) (l : β → State → Run γ) :
    (r.andThen k).andThen l = r.andThen fun a s => (k a s).andThen l := by
  cases r <;> rfl

theorem writeConfig_access (s : State) : BusAccess s (writeConfig s) := memWrite_access _ _ _ (.inl rfl)

/-- An address the decoder accepts is at most 0x05 (R86). -/
theorem regDecode_le {a : Byte} {x : DeviceReg × Access × WordFormat} (h : regDecode a = some x) : a.toNat ≤ 5 := by
  unfold regDecode at h
  split at h <;> first | omega | cases h

/-- An address the decoder calls read-write is 0x00 or 0x05 (R86). -/
theorem regDecode_readWrite {a : Byte} {reg : DeviceReg} {fmt : WordFormat}
    (h : regDecode a = some (reg, .readWrite, fmt)) : a = 0x00#8 ∨ a = 0x05#8 := by
  unfold regDecode at h
  split at h <;> try cases h
  · next h0 => exact .inl (BitVec.eq_of_toNat_eq h0)
  · next h5 => exact .inr (BitVec.eq_of_toNat_eq h5)

/-- The reads of MEASURE, their four words collected. -/
def measureReads (s : State) : Run (Word × Word × Word × Word) :=
  (memRead 0x01#8 s).andThen fun ws s1 =>
  (memRead 0x02#8 s1).andThen fun wb s2 =>
  (memWrite 0x05#8 s2.regs.calValue s2).andThen fun _ s3 =>
  (memRead 0x04#8 s3).andThen fun wc s4 =>
  (memRead 0x03#8 s4).andThen fun wp s5 => .returned (ws, wb, wc, wp) s5

theorem measureReads_access (s : State) : BusAccess s (measureReads s) :=
  (memRead_access _ _ (by decide)).andThen fun _ s1 _ =>
  (memRead_access _ s1 (by decide)).andThen fun _ s2 _ =>
  (memWrite_access _ _ s2 (.inr rfl)).andThen fun _ s3 _ =>
  (memRead_access _ s3 (by decide)).andThen fun _ s4 _ =>
  (memRead_access _ s4 (by decide)).andThen fun _ s5 _ =>
    ⟨[], s5.writeAnswers, s5.readAnswers, s5.freeDraws, by simp, by simp, by simp [Run.EndsAsItsEventsSay]⟩

theorem bodyMeasure_eq {s : State} {c : CalResult} (h : s.regs.cal = some c) :
    bodyMeasure s = (measureReads s).andThen fun w t => .returned ()
      (t.setRegs { t.regs with snap := some (snapshotOf t.params.fpFormat c w.1 w.2.1 w.2.2.1 w.2.2.2) }) := by
  simp only [bodyMeasure, h, measureReads, Run.andThen_assoc, Run.andThen_returned]

/-- THE INVERSION LEMMA of the command bodies. -/
theorem bodyOf_cases (i : Instr) (s : State) :
    (∃ e, e.code ≠ 1#4 ∧ bodyOf i s = .raised e s) ∨
      AccessWriting (RegsAfter s.params s.regs i) s (bodyOf i s) := by
  cases i with
  | init =>
    refine .inr (BusAccess.writing (q := initRegs s.regs) ?_ rfl)
    exact (busBegin_access _).andThen fun _ t _ =>
      (memWrite_access _ _ t (.inl rfl)).andThen fun _ u _ => memWrite_access _ _ u (.inr rfl)
  | readReg a =>
    simp only [bodyOf, bodyReadReg]
    split
    · exact .inl ⟨_, by simp [CommandError.code], rfl⟩
    · next hd =>
      split
      · exact .inl ⟨_, by simp [CommandError.code], rfl⟩
      · refine .inr (BusAccess.thenWrite (memRead_access a s (regDecode_le hd)) (.inl rfl) ?_)
        intro w t ht
        obtain ⟨hr, -⟩ := (memRead_access a s (regDecode_le hd)).returned_eq ht
        exact .inr ⟨w, by simp [hr]⟩
  | writeReg a v =>
    simp only [bodyOf, bodyWriteReg]
    split
    · exact .inl ⟨_, by simp [CommandError.code], rfl⟩
    · exact .inl ⟨_, by simp [CommandError.code], rfl⟩
    · next hd => exact .inr (BusAccess.writing (q := s.regs) (memWrite_access a v s (regDecode_readWrite hd)) rfl)
  | applyConfig f =>
    simp only [bodyOf, bodyApplyConfig]
    split
    · exact .inl ⟨_, by simp [CommandError.code], rfl⟩
    · next hb =>
      split
      · exact .inl ⟨_, by simp [CommandError.code], rfl⟩
      · next hs =>
        exact .inr (BusAccess.writing (writeConfig_access _) ⟨by simpa using hb, by simpa using hs, rfl⟩)
  | resetDevice =>
    refine .inr (BusAccess.thenWrite (memWrite_access _ _ s (.inl rfl)) (.inl rfl) ?_)
    intro u t ht
    obtain ⟨hr, -⟩ := (memWrite_access _ _ s (.inl rfl)).returned_eq ht
    exact .inr (by simp [hr])
  | setMode m => exact .inr (BusAccess.writing (writeConfig_access _) rfl)
  | standby => exact .inr (BusAccess.writing (writeConfig_access _) rfl)
  | resume => exact .inr (BusAccess.writing (writeConfig_access _) rfl)
  | calibrate cr =>
    simp only [bodyOf, bodyCalibrate]
    split
    · exact .inl ⟨_, by simp [CommandError.code], rfl⟩
    · split
      · exact .inl ⟨_, by simp [CommandError.code], rfl⟩
      · next hq =>
        exact .inr (BusAccess.writing (memWrite_access _ _ _ (.inr rfl)) ⟨by simpa using hq, rfl⟩)
  | measure =>
    simp only [bodyOf]
    cases hc : s.regs.cal with
    | none => exact .inl ⟨.staleCalibration .measure, by simp [CommandError.code], by simp [bodyMeasure, hc]⟩
    | some c =>
      rw [bodyMeasure_eq hc]
      refine .inr (BusAccess.thenWrite (measureReads_access s) (.inl rfl) ?_)
      intro w t ht
      obtain ⟨hr, hp⟩ := (measureReads_access s).returned_eq ht
      exact .inr ⟨c, w.1, w.2.1, w.2.2.1, w.2.2.2, hc, by simp [hr, hp]⟩

/-- THE INVERSION LEMMA of exec: a command ends at a check with nothing but the error record written, or with the registers its
rule gives and as its bus events say: completed, failed at its last event, or stuck on it (R110, R111, R125). -/
theorem exec_cases {i : Instr} {s t : State} (h : exec i s = .next t) :
    (∃ e, e.code ≠ 1#4 ∧ t = completeWithError e s) ∨
    ∃ q events ws rs n, RegsAfter s.params s.regs i q ∧ (∀ e ∈ events, e.allowed s.params.devAddr = true) ∧
      let u : State := { s with regs := q, trace := s.trace ++ events, writeAnswers := ws, readAnswers := rs, freeDraws := n }
      (t = completeOk u ∧ ∀ e ∈ events, e.succeeded = true) ∨
      ∃ before last, events = before ++ [last] ∧ (∀ e ∈ before, e.succeeded = true) ∧
        ((last.failed = true ∧ t = completeWithError .transportError u) ∨
          (last.pending = true ∧ t = { u with busy := true, done := false })) := by
  rw [exec_next_iff] at h
  subst h
  rcases bodyOf_cases i (beginCommand s) with ⟨e, he, hb⟩ | ⟨q, events, ws, rs, n, hq, hst, hal, hend⟩
  · exact .inl ⟨e, he, by rw [hb]; rfl⟩
  · refine .inr ⟨q, events, ws, rs, n, hq, hal, ?_⟩
    generalize bodyOf i (beginCommand s) = r at hst hend
    cases r with
    | returned u x =>
      simp only [Run.state_returned] at hst
      exact .inl ⟨by rw [finishCommand_returned, hst]; rfl, hend⟩
    | raised e x =>
      simp only [Run.state_raised] at hst
      obtain ⟨rfl, before, last, he, hb, hl⟩ := hend
      exact .inr ⟨before, last, he, hb, .inl ⟨hl, by rw [finishCommand_raised, hst]; rfl⟩⟩
    | hung x =>
      simp only [Run.state_hung] at hst
      obtain ⟨before, last, he, hb, hl⟩ := hend
      exact .inr ⟨before, last, he, hb, .inr ⟨hl, by rw [finishCommand_hung, hst]; rfl⟩⟩

end Sys2Proof.Machine
end

