-- ==== Sys2Proof/Laws/Encoding.lean ====
section
/-! SUPPORT. The fields of an assembled command word (30_encoding.md R70), and the values of the config multiplexer (R75). -/

namespace Sys2Proof

theorem commandWord_toNat (op : BitVec 4) (a : Byte) (d : Word) :
    (commandWord op a d).toNat = op.toNat * 2 ^ 28 + a.toNat * 2 ^ 16 + d.toNat := by
  have ha := a.isLt
  have hd := d.isLt
  simp only [commandWord, BitVec.toNat_append, BitVec.toNat_ofNat]
  rw [← Nat.shiftLeft_add_eq_or_of_lt hd, ← Nat.shiftLeft_add_eq_or_of_lt ha,
    ← Nat.shiftLeft_add_eq_or_of_lt (by decide)]
  simp only [Nat.shiftLeft_eq]
  omega

theorem opField_toNat (cw : CommandWord) : (opField cw).toNat = cw.toNat / 2 ^ 28 := by
  have h := cw.isLt
  simp only [opField, BitVec.extractLsb'_toNat, Nat.shiftRight_eq_div_pow]
  omega

theorem rsvField_toNat (cw : CommandWord) : (rsvField cw).toNat = cw.toNat / 2 ^ 24 % 2 ^ 4 := by
  simp only [rsvField, BitVec.extractLsb'_toNat, Nat.shiftRight_eq_div_pow]

theorem aField_toNat (cw : CommandWord) : (aField cw).toNat = cw.toNat / 2 ^ 16 % 2 ^ 8 := by
  simp only [aField, BitVec.extractLsb'_toNat, Nat.shiftRight_eq_div_pow]

theorem dField_toNat (cw : CommandWord) : (dField cw).toNat = cw.toNat % 2 ^ 16 := by
  simp only [dField, BitVec.extractLsb'_toNat, Nat.shiftRight_eq_div_pow]
  omega

theorem opField_commandWord (op : BitVec 4) (a : Byte) (d : Word) : opField (commandWord op a d) = op := by
  have ha := a.isLt
  have hd := d.isLt
  apply BitVec.eq_of_toNat_eq
  rw [opField_toNat, commandWord_toNat]
  omega

theorem rsvField_commandWord (op : BitVec 4) (a : Byte) (d : Word) : rsvField (commandWord op a d) = 0#4 := by
  have ha := a.isLt
  have hd := d.isLt
  apply BitVec.eq_of_toNat_eq
  rw [rsvField_toNat, commandWord_toNat, BitVec.toNat_ofNat]
  omega

theorem aField_commandWord (op : BitVec 4) (a : Byte) (d : Word) : aField (commandWord op a d) = a := by
  have ha := a.isLt
  have hd := d.isLt
  apply BitVec.eq_of_toNat_eq
  rw [aField_toNat, commandWord_toNat]
  omega

theorem dField_commandWord (op : BitVec 4) (a : Byte) (d : Word) : dField (commandWord op a d) = d := by
  have ha := a.isLt
  have hd := d.isLt
  apply BitVec.eq_of_toNat_eq
  rw [dField_toNat, commandWord_toNat]
  omega

namespace Machine

/-- Two codes in disjoint bit positions add when they are joined. -/
theorem or_toNat_of_low {x y : Word} {k : Nat} (hx : 2 ^ k ∣ x.toNat) (hy : y.toNat < 2 ^ k) :
    (x ||| y).toNat = x.toNat + y.toNat := by
  obtain ⟨m, hm⟩ := hx
  rw [BitVec.toNat_or, hm, Nat.mul_comm, ← Nat.shiftLeft_eq, Nat.shiftLeft_add_eq_or_of_lt hy]

theorem code_toNat {n : Nat} (c : BitVec n) (k : Nat) (h : n + k ≤ 16) :
    (c.setWidth 16 <<< k).toNat = c.toNat * 2 ^ k := by
  have hc : c.toNat * 2 ^ k < 2 ^ 16 :=
    calc c.toNat * 2 ^ k < 2 ^ n * 2 ^ k := Nat.mul_lt_mul_of_pos_right c.isLt (by positivity)
      _ = 2 ^ (n + k) := (Nat.pow_add 2 n k).symm
      _ ≤ 2 ^ 16 := Nat.pow_le_pow_right (by decide) h
  have hc' : c.toNat < 2 ^ 16 :=
    Nat.lt_of_lt_of_le c.isLt (Nat.pow_le_pow_right (by decide) (by omega))
  rw [BitVec.toNat_shiftLeft, BitVec.toNat_setWidth, Nat.mod_eq_of_lt hc', Nat.shiftLeft_eq, Nat.mod_eq_of_lt hc]

end Machine

end Sys2Proof
end

