-- ==== Sys2Proof/Laws/PerInstr.lean ====
section
/-! SUPPORT. Facts about every command as syntax, one lemma per constructor (30_encoding.md R70, R71). -/

namespace Sys2Proof.Laws

/-- The encoded word carries the command's opcode, and its reserved field is 0. -/
def EncodedOpcode.Statement (i : Instr) : Prop :=
  opField (encode i).word = i.opcode ∧ rsvField (encode i).word = 0#4

theorem EncodedOpcode.init : EncodedOpcode.Statement .init :=
  ⟨opField_commandWord _ _ _, rsvField_commandWord _ _ _⟩

theorem EncodedOpcode.readReg (a : Byte) : EncodedOpcode.Statement (.readReg a) :=
  ⟨opField_commandWord _ _ _, rsvField_commandWord _ _ _⟩

theorem EncodedOpcode.writeReg (a : Byte) (v : Word) : EncodedOpcode.Statement (.writeReg a v) :=
  ⟨opField_commandWord _ _ _, rsvField_commandWord _ _ _⟩

theorem EncodedOpcode.applyConfig (f : ConfigFields) : EncodedOpcode.Statement (.applyConfig f) :=
  ⟨opField_commandWord _ _ _, rsvField_commandWord _ _ _⟩

theorem EncodedOpcode.resetDevice : EncodedOpcode.Statement .resetDevice :=
  ⟨opField_commandWord _ _ _, rsvField_commandWord _ _ _⟩

theorem EncodedOpcode.setMode (m : BitVec 3) : EncodedOpcode.Statement (.setMode m) :=
  ⟨opField_commandWord _ _ _, rsvField_commandWord _ _ _⟩

theorem EncodedOpcode.standby : EncodedOpcode.Statement .standby :=
  ⟨opField_commandWord _ _ _, rsvField_commandWord _ _ _⟩

theorem EncodedOpcode.resume : EncodedOpcode.Statement .resume :=
  ⟨opField_commandWord _ _ _, rsvField_commandWord _ _ _⟩

theorem EncodedOpcode.calibrate (cr : RealBits) : EncodedOpcode.Statement (.calibrate cr) :=
  ⟨opField_commandWord _ _ _, rsvField_commandWord _ _ _⟩

theorem EncodedOpcode.measure : EncodedOpcode.Statement .measure :=
  ⟨opField_commandWord _ _ _, rsvField_commandWord _ _ _⟩

end Sys2Proof.Laws
end

