-- ==== Sys2Proof/Laws/Ports.lean ====
section
/-! SUPPORT. What a read and an output port give, by whether the register holds a value (10_state.md R28, 30_encoding.md R68). -/

namespace Sys2Proof.Machine

/-! A read is refused exactly while the valid flag is 0. -/

theorem Regs.readRdata_eq_none_iff {r : Regs} : r.readRdata = none ↔ r.rdataValid = false := by
  simp [Regs.readRdata, Regs.rdataValid]
theorem Regs.readCalResult_eq_none_iff {r : Regs} (reg : CalResult → RealBits) :
    r.readCalResult reg = none ↔ r.calValid = false := by simp [Regs.readCalResult, Regs.calValid]
theorem Regs.readSnapshot_eq_none_iff {α : Type} {r : Regs} (reg : Snapshot → α) :
    r.readSnapshot reg = none ↔ r.snapValid = false := by simp [Regs.readSnapshot, Regs.snapValid]

@[simp] theorem Regs.readRdata_of_some {r : Regs} {w : Word} (h : r.rdata = some w) : r.readRdata = some w := by
  simp [Regs.readRdata, h]
@[simp] theorem Regs.readRdata_of_none {r : Regs} (h : r.rdata = none) : r.readRdata = none := by
  simp [Regs.readRdata, h]
@[simp] theorem Regs.readCalResult_of_some {r : Regs} {c : CalResult} (h : r.cal = some c) (reg : CalResult → RealBits) :
    r.readCalResult reg = some (reg c) := by simp [Regs.readCalResult, h]
@[simp] theorem Regs.readCalResult_of_none {r : Regs} (h : r.cal = none) (reg : CalResult → RealBits) :
    r.readCalResult reg = none := by simp [Regs.readCalResult, h]
@[simp] theorem Regs.readSnapshot_of_some {α : Type} {r : Regs} {n : Snapshot} (h : r.snap = some n) (reg : Snapshot → α) :
    r.readSnapshot reg = some (reg n) := by simp [Regs.readSnapshot, h]
@[simp] theorem Regs.readSnapshot_of_none {α : Type} {r : Regs} (h : r.snap = none) (reg : Snapshot → α) :
    r.readSnapshot reg = none := by simp [Regs.readSnapshot, h]

@[simp] theorem State.rdataPort_of_some {s : State} {w : Word} (h : s.ports.rdata = some w) : s.rdataPort = w := by
  simp [State.rdataPort, h]
@[simp] theorem State.calResultPort_of_some {s : State} {c : CalResult} (h : s.ports.cal = some c)
    (reg : CalResult → RealBits) : s.calResultPort reg = reg c := by simp [State.calResultPort, h]
@[simp] theorem State.snapshotPort_of_some {α : Type} {s : State} {n : Snapshot} (h : s.ports.snap = some n)
    (reg : Snapshot → α) : s.snapshotPort reg = reg n := by simp [State.snapshotPort, h]

end Sys2Proof.Machine
end

