-- ==== Sys2Proof/Tests/Slice0.lean ====
section
/-! SUPPORT. Tests: the well-formedness smoke, decodings of words written out from the spec, one-step vectors of
spec/95_test_vectors.md, and for every statement with hypotheses a state that meets them. Expected values come from the spec's vectors;
decimals are given as their binary64 patterns. -/

namespace Sys2Proof.Tests

open Sys2Proof.Machine

/-! ### Helpers -/

/-- The boot state of R136, its trace left empty, with these oracle answers queued. -/
def booted (ws : List WriteOutcome) (rs : List ReadOutcome) : State :=
  { State.reset with busy := false, autoInit := false, writeAnswers := ws, readAnswers := rs }

/-- The boot state with this configuration and saved mode. -/
def configured (f : ConfigFields) (saved : BitVec 3) (ws : List WriteOutcome) : State :=
  { booted ws [] with regs := { Regs.reset with cfg := f, savedMode := saved } }

/-- The results of `CAL 3.0` (V-CAL-1). -/
def cal3 : CalResult :=
  { currentLsb := 0x3F18000000000000#64
    powerLsb := 0x3F5E000000000000#64
    maxPossibleCurrent := 0x40A9000000000000#64
    maxCurrent := 0x4008000000000000#64
    maxCurrentBeforeOverflow := 0x4008000000000000#64
    maxShuntVoltage := 0x3FD3333333333334#64
    maxShuntVoltageBeforeOverflow := 0x3FD3333333333334#64
    maxPower := 0x4058000000000000#64 }

/-- The registers after `CAL 3.0` from boot. -/
def regsAfterCal3 : Regs := { Regs.reset with cal := some cal3, calValue := 0x1179#16 }

/-- The boot state after `CAL 3.0`. -/
def calibrated (ws : List WriteOutcome) (rs : List ReadOutcome) : State :=
  { booted ws rs with regs := regsAfterCal3, ports := regsAfterCal3 }

/-- The boot state with one command offered. -/
def offering (cw : CommandWord) (cr : RealBits) (ws : List WriteOutcome) (rs : List ReadOutcome) : State :=
  { booted ws rs with offers := [⟨cw, cr⟩] }

/-- A block stuck on a transaction that was never answered. -/
def stuck : State := { booted [] [] with busy := true }

/-- What one outcome leaves of a state, when it is a next state. -/
def seen {α : Type} (o : Host.Outcome State Fault Refusal) (view : State → α) : Option α :=
  match o with
  | .next s => some (view s)
  | .fault _ => none
  | .refused _ => none

/-! ### Well-formedness (R79, R86, R89) -/

theorem test_wellFormed_readReg_refuses_address_six : (Instr.readReg 0x06#8).wellFormed = false := by decide
theorem test_wellFormed_writeReg_refuses_read_only : (Instr.writeReg 0x01#8 0#16).wellFormed = false := by decide
theorem test_wellFormed_writeReg_refuses_unmapped : (Instr.writeReg 0x07#8 0#16).wellFormed = false := by decide
theorem test_wellFormed_applyConfig_refuses_badc :
    (Instr.applyConfig ⟨1#1, 3#2, 4#4, 3#4, 7#3⟩).wellFormed = false := by decide
theorem test_wellFormed_applyConfig_refuses_sadc :
    (Instr.applyConfig ⟨1#1, 3#2, 3#4, 7#4, 7#3⟩).wellFormed = false := by decide
theorem test_wellFormed_accepts :
    (Instr.readReg 0x05#8).wellFormed && (Instr.writeReg 0x05#8 1#16).wellFormed &&
      (Instr.applyConfig ⟨0#1, 1#2, 13#4, 3#4, 5#3⟩).wellFormed = true := by decide
theorem test_assembler_refuses_operands_that_do_not_fit :
    [AsmLine.rdreg (.number 256), .wrreg (.number 5) 65536, .config .v16 .mv80 16 3 5, .configw 0x4000, .setmode 8,
      .cal false 1 0].map (assemble Params.thisBlock) = [none, none, none, none, none, none] := by decide +kernel

/-! ### Words written out from the encodings of R71 and R89 -/

theorem test_decode_init : decode 0x10000000#32 0#64 = some .init := by decide
theorem test_decode_readReg : decode 0x20020000#32 0#64 = some (.readReg 0x02#8) := by decide
theorem test_decode_writeReg : decode 0x30051000#32 0#64 = some (.writeReg 0x05#8 0x1000#16) := by decide
theorem test_decode_applyConfig :
    decode 0x40003FFF#32 0#64 = some (.applyConfig ⟨1#1, 3#2, 15#4, 15#4, 7#3⟩) := by decide
theorem test_decode_applyConfig_fields :
    decode 0x400035CE#32 0#64 = some (.applyConfig ⟨1#1, 2#2, 11#4, 9#4, 6#3⟩) := by decide
theorem test_decode_resetDevice : decode 0x50000000#32 0xFF#64 = some .resetDevice := by decide
theorem test_decode_setMode : decode 0x60000005#32 0#64 = some (.setMode 5#3) := by decide
theorem test_decode_standby : decode 0x70000000#32 0#64 = some .standby := by decide
theorem test_decode_resume : decode 0x80000000#32 0#64 = some .resume := by decide
theorem test_decode_calibrate :
    decode 0x90000000#32 0x4008000000000000#64 = some (.calibrate 0x4008000000000000#64) := by decide
theorem test_decode_measure : decode 0xA0000000#32 0#64 = some .measure := by decide
theorem test_decode_illegal :
    [0x00000000#32, 0x10000001#32, 0x11000000#32, 0x200500FF#32, 0x21060000#32, 0x40004000#32, 0x4000C000#32,
      0x40010E9D#32, 0x60000008#32, 0x90010000#32, 0xA0000001#32, 0xB0000000#32, 0xF0000000#32].all
      (fun w => (decode w 0#64).isNone) = true := by decide
theorem test_decodeTableWord_writeReg : decodeTableWord 32 0x3005FFFF = some (.writeReg 0x05#8 0xFFFF#16) := by decide
theorem test_opcode_rows_disjoint :
    opcodeRows.Pairwise (fun r r' => r.pattern &&& (r.mask &&& r'.mask) ≠ r'.pattern &&& (r.mask &&& r'.mask)) := by
  decide
theorem test_assemble_config :
    assemble Params.thisBlock (.config .v16 .mv80 13 3 5) = some ⟨0x40000E9D#32, 0#64⟩ := by decide +kernel
/-- R89, R23: fl(0.1) of a binary32 instance is the binary32 value 0x3DCCCCCD, here as its binary64 pattern (log 26). -/
theorem test_assemble_cal_binary32 :
    assemble { Params.thisBlock with fpFormat := .binary32 } (.cal false 1 10) =
      some ⟨0x90000000#32, 0x3FB99999A0000000#64⟩ := by decide +kernel
theorem test_assemble_cal :
    assemble Params.thisBlock (.cal false 2048 10000) = some ⟨0x90000000#32, 0x3FCA36E2EB1C432D#64⟩ := by
  decide +kernel

/-! ### Parameters (R8, R9, R19) and single operations -/

theorem test_parameter_patterns :
    [shuntR .binary64, calConst .binary64, shuntLsbV .binary64, busLsbV .binary64, currentDiv .binary64] =
      [0x3FB999999999999A#64, 0x3FA4F8B588E368F1#64, 0x3EE4F8B588E368F1#64, 0x3F70624DD2F1A9FC#64,
        0x40E0000000000000#64] := by decide +kernel
theorem test_fdiv_by_zero : fdiv .binary64 0x3FF0000000000000#64 0#64 = 0x7FF0000000000000#64 := by decide +kernel
theorem test_busDecode_source_example : busDecode 0x1FFB#16 = ⟨0x3FF#13, true, true⟩ := by decide
theorem test_scaleBus_source_example : scaleBus .binary64 0x1FFB#16 = 0x40105E353F7CED92#64 := by decide +kernel
theorem test_scaleShunt_minimum : scaleShunt .binary64 0x8000#16 = 0xBFD4F8B588E368F1#64 := by decide +kernel
theorem test_scalePower_unsigned : scalePower .binary64 cal3.powerLsb 0xFFFF#16 = 0x405DFFE200000000#64 := by
  decide +kernel

theorem test_fmul_tie_to_even :  -- (1 + 2^-52) * 1.5 lies midway; the even neighbour is 1.5 + 2^-51
    fmul .binary64 0x3FF0000000000001#64 0x3FF8000000000000#64 = 0x3FF8000000000002#64 := by decide +kernel
theorem test_fmul_overflow :  -- the largest finite value times 2.0
    fmul .binary64 0x7FEFFFFFFFFFFFFF#64 0x4000000000000000#64 = 0x7FF0000000000000#64 := by decide +kernel

/-! ### Reads and output ports (R28, R68) -/

theorem test_read_of_no_value_is_refused :
    State.reset.ports.readRdata = none ∧ State.reset.ports.readSnapshot Snapshot.ovf = none := ⟨rfl, rfl⟩
theorem test_port_shows_the_register :
    (calibrated [] []).calResultPort CalResult.maxPower = 0x4058000000000000#64 ∧
      (calibrated [] []).ports.readCalResult CalResult.maxPower = some 0x4058000000000000#64 := ⟨rfl, rfl⟩

/-! ### Commands (95_test_vectors.md 2.2 to 2.6) -/

theorem test_readReg_bus :  -- V-REG-3
    seen (exec (.readReg 0x02#8) (booted [.ack] [.data 0x1F#8 0xFB#8])) (fun t => (t.regs.rdata, t.regs.status, t.trace)) =
      some (some 0x1FFB#16, 0#4, [.wr 0x40#7 [0x02#8] .ack, .rd 0x40#7 (.data 0x1F#8 0xFB#8)]) := by decide
theorem test_readReg_pointer_fails :  -- V-REG-8
    seen (exec (.readReg 0x02#8) (booted [.err] [])) (fun t => (t.regs.rdata, t.regs.status, t.trace)) =
      some (none, 1#4, [.wr 0x40#7 [0x02#8] .err]) := by decide
theorem test_writeReg_cal :  -- V-REG-11
    seen (exec (.writeReg 0x05#8 0x1000#16) (calibrated [.ack] [])) (fun t => (t.regs, t.trace)) =
      some (regsAfterCal3, [.wr 0x40#7 [0x05#8, 0x10#8, 0x00#8] .ack]) := by decide
theorem test_writeReg_read_only :  -- V-REG-14
    seen (exec (.writeReg 0x01#8 0x1234#16) (booted [] [])) (fun t => (t.regs.status, t.regs.errSticky, t.trace)) =
      some (7#4, 0x080#9, []) := by decide
theorem test_applyConfig :  -- V-CFG-1
    seen (exec (.applyConfig ⟨0#1, 1#2, 13#4, 3#4, 5#3⟩) (booted [.ack] [])) (fun t => (t.regs.savedMode, t.trace)) =
      some (5#3, [.wr 0x40#7 [0x00#8, 0x0E#8, 0x9D#8] .ack]) := by decide
theorem test_applyConfig_write_fails :  -- V-CFG-3c
    seen (exec (.applyConfig ⟨0#1, 1#2, 13#4, 3#4, 5#3⟩) (booted [.err] [])) (fun t => (t.regs.cfg, t.regs.status)) =
      some (⟨0#1, 1#2, 13#4, 3#4, 5#3⟩, 1#4) := by decide
theorem test_standby :  -- V-CFG-4a
    seen (exec .standby (configured ⟨0#1, 1#2, 13#4, 3#4, 5#3⟩ 5#3 [.ack])) (fun t => (t.regs.savedMode, t.trace)) =
      some (5#3, [.wr 0x40#7 [0x00#8, 0x0E#8, 0x98#8] .ack]) := by decide
theorem test_resume :  -- V-CFG-5c
    seen (exec .resume (configured ⟨0#1, 1#2, 13#4, 3#4, 0#3⟩ 5#3 [.ack])) (fun t => (t.cfgWordPort, t.trace)) =
      some (0x0E9D#16, [.wr 0x40#7 [0x00#8, 0x0E#8, 0x9D#8] .ack]) := by decide
theorem test_setMode :  -- V-CFG-6
    seen (exec (.setMode 6#3) (configured ⟨0#1, 1#2, 13#4, 3#4, 5#3⟩ 5#3 [.ack])) (fun t => (t.regs.savedMode, t.trace)) =
      some (6#3, [.wr 0x40#7 [0x00#8, 0x0E#8, 0x9E#8] .ack]) := by decide
theorem test_resetDevice :  -- V-CFG-7
    seen (exec .resetDevice (configured ⟨0#1, 1#2, 13#4, 3#4, 6#3⟩ 6#3 [.ack])) (fun t => (t.cfgWordPort, t.trace)) =
      some (0x0E9F#16, [.wr 0x40#7 [0x00#8, 0x80#8, 0x00#8] .ack]) := by decide
theorem test_resetDevice_write_fails :  -- V-CFG-9, from a mode other than 7
    seen (exec .resetDevice (configured ⟨0#1, 1#2, 13#4, 3#4, 6#3⟩ 6#3 [.err])) (fun t => (t.regs.cfg.mode, t.regs.status)) =
      some (6#3, 1#4) := by decide
theorem test_init_keeps_sticky :  -- V-CFG-10
    seen (exec .init { calibrated [.ack, .ack] [] with regs := { regsAfterCal3 with errSticky := 0x002#9 } })
      (fun t => (t.regs.cal, t.regs.errSticky, t.trace)) =
      some (none, 0x002#9, [.begin, .wr 0x40#7 [0x00#8, 0x39#8, 0x9F#8] .ack, .wr 0x40#7 [0x05#8, 0x00#8, 0x00#8] .ack]) := by
  decide
theorem test_calibrate_three_amperes :  -- V-CAL-1
    seen (exec (.calibrate 0x4008000000000000#64) (booted [.ack] [])) (fun t => (t.regs, t.trace)) =
      some (regsAfterCal3, [.wr 0x40#7 [0x05#8, 0x11#8, 0x79#8] .ack]) := by decide +kernel
theorem test_calibrate_clamp :  -- V-CAL-20, I = 500.0, through the result registers
    seen (exec (.calibrate 0x407F400000000000#64) (configured ⟨0#1, 0#2, 3#4, 3#4, 7#3⟩ 7#3 [.ack]))
      (fun t => (t.regs.calValue, t.regs.cal.map (fun c => [c.maxCurrent, c.maxCurrentBeforeOverflow, c.maxPower]))) =
      some (26#16, some [0x407F400000000000#64, 0x4079000000000000#64, 0x40B9000000000000#64]) := by decide +kernel
theorem test_calibrate_out_of_range :  -- V-CAL-7
    seen (exec (.calibrate 0x3FCA36E2EB1C432D#64) (booted [] [])) (fun t => (t.regs.status, t.regs.calValid, t.trace)) =
      some (5#4, false, []) := by decide +kernel
theorem test_measure :  -- V-MEAS-1
    seen (exec .measure (calibrated [.ack, .ack, .ack, .ack, .ack]
      [.data 0x0F#8 0xA0#8, .data 0x5D#8 0x9A#8, .data 0x10#8 0x00#8, .data 0x03#8 0xE8#8])) (fun t => t.regs.snap) =
      some (some
        { rawShunt := 0x0FA0#16, rawBus := 0x5D9A#16, rawCurrent := 0x1000#16, rawPower := 0x03E8#16
          busValue := 2995#13, ovf := false, cnvr := true
          shuntV := 0x3FA47AE147AE147B#64, busV := 0x4027F5C28F5C28F6#64
          current := 0x3FD8000000000000#64, power := 0x3FFD4C0000000000#64 }) := by decide +kernel
theorem test_measure_last_read_fails :  -- V-MEAS-3, k = 9
    seen (exec .measure (calibrated [.ack, .ack, .ack, .ack, .ack]
      [.data 0#8 1#8, .data 0#8 1#8, .data 0#8 1#8, .err])) (fun t => (t.regs.snapValid, t.regs.status, t.trace.length)) =
      some (false, 1#4, 9) := by decide

/-! ### Steps -/

theorem test_step_boot_config_write_fails :  -- V-RST-2
    seen (step { State.reset with writeAnswers := [.err] }) (fun t => (t.busy, t.regs.status, t.regs.errSticky, t.trace)) =
      some (false, 1#4, 0x002#9, [.begin, .wr 0x40#7 [0x00#8, 0x39#8, 0x9F#8] .err]) := by decide
theorem test_step_illegal_word :  -- V-EXC-1
    seen (step (offering 0x21060000#32 0#64 [] [])) (fun t => (t.regs.status, t.offers, t.trace)) =
      some (8#4, [], []) := by decide
theorem test_step_hang :  -- V-REG-10
    seen (step (offering 0x20020000#32 0#64 [.ack] [.noAnswer])) (fun t => (t.busy, t.done, t.trace)) =
      some (true, false, [.wr 0x40#7 [0x02#8] .ack, .rd 0x40#7 .noAnswer]) := by decide
theorem test_step_stuck_has_no_step : seen (step stuck) (fun t => t.busy) = none := by decide
theorem test_step_reset_while_stuck :  -- V-RST-4
    seen (step stuck.assertRst) (fun t => (t.regs, t.busy, t.autoInit, t.trace)) =
      some (Regs.reset, true, true, []) := by decide
theorem test_withFetchWord_runs_the_word :
    seen (step (State.reset.withFetchWord 32 0xB0000000)) (fun t => (t.cw, t.regs.status)) =
      some (0xB0000000#32, 8#4) := by decide

/-! ### Witnesses: states that meet the hypotheses of the statements -/

theorem bootRegs_legal : Regs.reset.Legal Params.thisBlock where
  savedMode_ne := by decide
  mode_eq := by decide
  badc_legal := by decide
  sadc_legal := by decide
  status_le := by decide
  sticky_zero := by decide
  status_sticky := by decide
  calValue_zero := by decide
  cal_coherent := by intro c h; cases h
  snap_coherent := by intro n h; cases h

theorem booted_inv (ws : List WriteOutcome) (rs : List ReadOutcome) : (booted ws rs).Inv where
  regs_legal := bootRegs_legal
  ports_legal := bootRegs_legal
  ports_current := fun _ => rfl
  autoInit_fresh := by intro h; cases h
  done_idle := by intro h; cases h
  trace_allowed := by intro e h; cases h
  trace_answered := by intro _ e h; cases h

/-- The mode before STANDBY is already power-down (90_conflicts.md C8). -/
def inPowerDown (ws : List WriteOutcome) : State :=
  { booted ws [] with
    regs := { Regs.reset with cfg := ⟨1#1, 3#2, 3#4, 3#4, 0#3⟩ }
    ports := { Regs.reset with cfg := ⟨1#1, 3#2, 3#4, 3#4, 0#3⟩ } }

theorem inPowerDown_regs_legal :
    ({ Regs.reset with cfg := ⟨1#1, 3#2, 3#4, 3#4, 0#3⟩ } : Regs).Legal Params.thisBlock where
  savedMode_ne := by decide
  mode_eq := by decide
  badc_legal := by decide
  sadc_legal := by decide
  status_le := by decide
  sticky_zero := by decide
  status_sticky := by decide
  calValue_zero := by decide
  cal_coherent := by intro c h; cases h
  snap_coherent := by intro n h; cases h

theorem inPowerDown_inv (ws : List WriteOutcome) : (inPowerDown ws).Inv where
  regs_legal := inPowerDown_regs_legal
  ports_legal := inPowerDown_regs_legal
  ports_current := fun _ => rfl
  autoInit_fresh := by intro h; cases h
  done_idle := by intro h; cases h
  trace_allowed := by intro e h; cases h
  trace_answered := by intro _ e h; cases h

theorem witness_DecodedCommandEncodesBackToItsWord :
    decode 0x90000000#32 0x4008000000000000#64 = some (.calibrate 0x4008000000000000#64) ∧
      decode 0x3005FFFF#32 1#64 = some (.writeReg 0x05#8 0xFFFF#16) := by decide
theorem witness_WordIsACommandExactlyWhenOneTableRowMatches :
    decode 0x6000000F#32 0#64 = none ∧ decode 0x60000007#32 0#64 = some (.setMode 7#3) ∧
      ⟨"SET_MODE", 0x60000000#32, 0xFFFFFFF8#32⟩ ∈ opcodeRows := by decide
theorem witness_RealOperandIsReadOnlyByCalibrate : opField 0xA0000000#32 ≠ 0x9#4 ∧ opField 0x80000000#32 ≠ 0x9#4 := by
  decide
theorem witness_RegisterAddressDecoderTable : (0x05 : Nat) < (0x06#8 : Byte).toNat ∧ 0x05 < (0xFF#8 : Byte).toNat := by decide
theorem witness_SignedWordsAreTwosComplement :
    regDecode 0x01#8 = some (.shuntVoltage, .readOnly, .signed) ∧
      regDecode 0x04#8 = some (.current, .readOnly, .signed) ∧ (0x7FFF#16 : Word).toNat < 32768 ∧
      ¬(0x8000#16 : Word).toNat < 32768 := by decide
theorem witness_RegisterReadProtocol :
    (booted [.err] []).writeAnswers = .err :: [] ∧ (booted [.noAnswer] []).writeAnswers = .noAnswer :: [] ∧
      (booted [.ack] [.data 1#8 2#8]).writeAnswers = .ack :: [] ∧
      (booted [.ack] [.data 1#8 2#8]).readAnswers = .data 1#8 2#8 :: [] := by decide
theorem witness_RegisterWriteProtocol :
    (booted [.ack] []).writeAnswers = .ack :: [] ∧ (booted [.err] []).writeAnswers = .err :: [] ∧
      (booted [.noAnswer] []).writeAnswers = .noAnswer :: [] := by decide
theorem witness_StepRunsTheDecodedCommand :
    (offering 0x70000000#32 0#64 [.ack] []).rst = false ∧ (offering 0x70000000#32 0#64 [.ack] []).busy = false ∧
      (offering 0x70000000#32 0#64 [.ack] []).offers = ⟨0x70000000#32, 0#64⟩ :: [] ∧
      decode 0x70000000#32 0#64 = some .standby := by decide
theorem witness_IllegalWordReportsCodeEight :
    (offering 0xB0000000#32 0#64 [] []).rst = false ∧ (offering 0xB0000000#32 0#64 [] []).busy = false ∧
      (offering 0xB0000000#32 0#64 [] []).offers = ⟨0xB0000000#32, 0#64⟩ :: [] ∧
      decode 0xB0000000#32 0#64 = none := by decide
theorem witness_IdleBlockWaitsForACommand :
    (booted [] []).rst = false ∧ (booted [] []).busy = false ∧ (booted [] []).offers = [] := by decide
theorem witness_OfferIsHeldDuringTheAutomaticInit :
    State.reset.rst = false ∧ State.reset.busy = true ∧ State.reset.autoInit = true := by decide
theorem witness_UnansweredTransactionLeavesTheBlockStuck :
    (∃ t e, exec .standby (booted [.noAnswer] []) = .next t ∧ t.busy = true ∧
      t.trace = (booted [.noAnswer] []).trace ++ [e] ∧ e.pending = true) ∧
      stuck.busy = true ∧ stuck.autoInit = false ∧ stuck.rst = false ∧
      stuck.assertRst.busy = true ∧ stuck.assertRst.autoInit = false ∧ stuck.assertRst.rst = true :=
  ⟨⟨_, BusEvent.wr 0x40#7 [0x00#8, 0x39#8, 0x98#8] .noAnswer, rfl, rfl, rfl, rfl⟩, by decide⟩
theorem witness_HardwareResetRestoresEveryElement : (calibrated [] []).assertRst.rst = true := by decide
theorem witness_AutomaticInitAfterReset :
    [[WriteOutcome.ack, .ack], [.err], [.ack, .err], [.noAnswer], [.ack, .noAnswer]].all (fun ws =>
      let s : State := { State.reset with writeAnswers := ws }
      !s.rst && s.busy && s.autoInit && decide (s.trace = [] ∧ s.regs = State.reset.regs ∧ s.writeAnswers = ws)) = true := by
  decide
theorem witness_InitCommand :
    [[WriteOutcome.ack, .ack], [.err], [.noAnswer], [.ack, .err], [.ack, .noAnswer]].all
      (fun ws => decide ((calibrated ws []).writeAnswers = ws)) = true := by decide
theorem witness_ReadRegisterCommand :
    (0x05 : Nat) < (0x06#8 : Byte).toNat ∧ (booted [] []).regs.calValid = false ∧
      (0x05#8 : Byte).toNat ≤ 0x05 ∧ (0x04#8 : Byte).toNat ≤ 0x05 ∧ (calibrated [.ack] []).regs.calValid = true ∧
      (calibrated [.ack] [.data 1#8 2#8]).readAnswers = .data 1#8 2#8 :: [] ∧
      (calibrated [.ack] [.err]).readAnswers = .err :: [] ∧
      (calibrated [.ack] [.noAnswer]).readAnswers = .noAnswer :: [] ∧
      (calibrated [.ack] [.err]).writeAnswers = .ack :: [] ∧ (calibrated [.err] []).writeAnswers = .err :: [] ∧
      (calibrated [.noAnswer] []).writeAnswers = .noAnswer :: [] := by decide
theorem witness_WriteRegisterCommand :
    (0x05 : Nat) < (0x06#8 : Byte).toNat ∧ (0x01 ≤ (0x01#8 : Byte).toNat ∧ (0x01#8 : Byte).toNat ≤ 0x04) ∧
      (0x01 ≤ (0x04#8 : Byte).toNat ∧ (0x04#8 : Byte).toNat ≤ 0x04) ∧
      (booted [.ack] []).writeAnswers = .ack :: [] ∧ (booted [.err] []).writeAnswers = .err :: [] ∧
      (booted [.noAnswer] []).writeAnswers = .noAnswer :: [] := by decide
theorem witness_ApplyConfigCommand :
    (4 ≤ (4#4 : BitVec 4).toNat ∧ (7#4 : BitVec 4).toNat ≤ 7) ∧
      ¬(4 ≤ (3#4 : BitVec 4).toNat ∧ (3#4 : BitVec 4).toNat ≤ 7) ∧
      ¬(4 ≤ (8#4 : BitVec 4).toNat ∧ (8#4 : BitVec 4).toNat ≤ 7) ∧
      (booted [.ack] []).writeAnswers = .ack :: [] ∧ (booted [.err] []).writeAnswers = .err :: [] ∧
      (booted [.noAnswer] []).writeAnswers = .noAnswer :: [] := by decide
theorem witness_SingleWriteCommands :  -- RESET_DEVICE, SET_MODE, STANDBY, RESUME
    (booted [.ack] []).writeAnswers = .ack :: [] ∧ (booted [.err] []).writeAnswers = .err :: [] ∧
      (booted [.noAnswer] []).writeAnswers = .noAnswer :: [] := by decide
/-- The hypotheses of CalibrateCommand and CalibrationValueIsTruncated at 3.0 A, in both formats. -/
theorem witness_CalibrateCommand :
    [FpFormat.binary64, .binary32].all (fun fmt =>
      let i := flBits fmt 0x4008000000000000#64
      let q := fdiv fmt (flDecimal fmt 4096 100000)
        (fmul fmt (fdiv fmt i (flDecimal fmt 32768 1)) (flDecimal fmt 1 10))
      isFinite i && isPositive i && isFinite q && decide (truncFp q ≤ 65535)) = true ∧
    (booted [.ack] []).writeAnswers = .ack :: [] ∧ (booted [.err] []).writeAnswers = .err :: [] ∧
      (booted [.noAnswer] []).writeAnswers = .noAnswer :: [] := by decide +kernel
theorem witness_CalibrateRefusesABadCurrent :
    isFinite (flBits .binary64 0x7FF8000000000000#64) = false ∧ isPositive (flBits .binary64 0x8000000000000000#64) = false ∧
      isPositive (flBits .binary64 0xBFF0000000000000#64) = false ∧
      isPositive (flBits .binary32 0x01A56E1FC2F8F359#64) = false := by decide +kernel
theorem witness_CalibrateRefusesAValueBeyondSixteenBits :
    isFinite 0x3FCA36E2EB1C432D#64 = true ∧ isPositive 0x3FCA36E2EB1C432D#64 = true ∧
      65535 < truncFp (calQuotient .binary64 (fdiv .binary64 0x3FCA36E2EB1C432D#64 (currentDiv .binary64))) ∧
      isPositive 1#64 = true ∧
      isFinite (calQuotient .binary64 (fdiv .binary64 1#64 (currentDiv .binary64))) = false := by decide +kernel
/-- The two states differ in RANGE and GAIN; both clauses: refused alike at -1.0 A, computed alike at 3.0 A. -/
theorem witness_CalibrationDependsOnTheCurrentAlone :
    (∃ t t', exec (.calibrate 0x4008000000000000#64) (booted [.ack] []) = .next t ∧
      exec (.calibrate 0x4008000000000000#64) (configured ⟨0#1, 0#2, 3#4, 3#4, 7#3⟩ 7#3 [.ack]) = .next t' ∧
      t.busy = false ∧ t'.busy = false ∧ t.regs.status ≠ 4#4 ∧ t.regs.status ≠ 5#4) ∧
    (∃ t, exec (.calibrate 0xBFF0000000000000#64) (booted [] []) = .next t ∧ t.busy = false ∧ t.regs.status = 4#4) :=
  ⟨⟨_, _, rfl, rfl, by decide +kernel⟩, ⟨_, rfl, by decide +kernel⟩⟩
theorem witness_MaxCurrentIsTheExpectedCurrent :
    0x0100000000000000 ≤ (0x0100000000000000#64 : RealBits).toNat ∧
      (0x7FEFFFFFFFFFFFFF#64 : RealBits).toNat < 0x7FF0000000000000 := by decide
theorem witness_MeasureCommand :
    let s := calibrated [.ack, .ack, .ack, .ack, .ack] [.data 1#8 2#8, .data 3#8 4#8, .data 5#8 6#8, .data 7#8 8#8]
    s.regs.cal = some cal3 ∧ s.writeAnswers = .ack :: .ack :: .ack :: .ack :: .ack :: [] ∧
      s.readAnswers = .data 1#8 2#8 :: .data 3#8 4#8 :: .data 5#8 6#8 :: .data 7#8 8#8 :: [] := by decide
theorem witness_MeasureCommitsAllOrNothing : ∃ t, exec .measure (calibrated [.ack] [.err]) = .next t := ⟨_, rfl⟩
theorem witness_StaleCalibrationIsReported : (booted [] []).regs.calValid = false := by decide
theorem witness_MeasureTwiceOnEqualBytesGivesEqualSnapshots :
    let d : List ReadOutcome := [.data 1#8 2#8, .data 3#8 4#8, .data 5#8 6#8, .data 7#8 8#8]
    let a : List WriteOutcome := [.ack, .ack, .ack, .ack, .ack]
    (calibrated (a ++ a ++ []) (d ++ d ++ [])).regs.calValid = true ∧
      (calibrated (a ++ a ++ []) (d ++ d ++ [])).writeAnswers = a ++ a ++ [] ∧
      (calibrated (a ++ a ++ []) (d ++ d ++ [])).readAnswers = d ++ d ++ [] := by decide
/-- The last clause's tie: 1/2 unit in binary64 lies midway between 0 and the smallest positive value. -/
theorem witness_RoundingGivesANearestValue :
    ((0 < 1) ∧ (1 < 2 ^ fpPrecision .binary32) ∧ fpMinShift .binary32 ≤ 925 ∧ fpMinShift .binary64 ≤ 0) ∧
      (0 < 2 ∧ 1 ≤ 2 ^ fpPrecision .binary64 ∧ 1 * 2 ^ 0 ≠ roundUnits .binary64 1 2 ∧
        ((1 * 2 ^ 0 * 2 : Nat) - (1 : Int)).natAbs = ((roundUnits .binary64 1 2 * 2 : Nat) - (1 : Int)).natAbs) := by decide
theorem witness_PatternOfItsValue : fpOfBits 0x8000000000000000#64 ≠ .nan ∧ fpOfBits 0x7FF0000000000000#64 ≠ .nan := by
  decide
theorem witness_IntegerConversionIsExact : (-65536 : Int).natAbs ≤ 65536 ∧ (0 : Int).natAbs ≤ 65536 := by decide
theorem witness_EveryStepKeepsTheInvariant :
    ∃ s t, s.Inv ∧ step s = .next t ∧ t.busy = false :=
  ⟨booted [.ack] [], _, booted_inv _ _, rfl, by decide⟩
theorem witness_CheckErrorsChangeOnlyTheErrorRecord :
    ∃ t, exec (.readReg 0x06#8) (booted [] []) = .next t ∧ t.busy = false ∧ t.regs.status ≠ 0#4 ∧ t.regs.status ≠ 1#4 :=
  ⟨_, rfl, by decide⟩
theorem witness_TransportErrorEndsTheCommand :
    (booted [.err] []).nextWriteOutcome = .err ∧ (booted [] [.err]).nextReadOutcome = .err ∧
      (∃ t, exec .standby (booted [.err] []) = .next t ∧ t.busy = false ∧ t.regs.status = 1#4) ∧
      (∃ t, exec .standby (booted [.ack] []) = .next t ∧ t.busy = false ∧ t.regs.status ≠ 1#4) :=
  ⟨by decide, by decide, ⟨_, rfl, by decide⟩, ⟨_, rfl, by decide⟩⟩
theorem witness_StickyRecordOnlyGrows :
    (∃ s t, s.Inv ∧ step s = .next t ∧ s.rst = false ∧ t.done = false) ∧
      (booted [] []).assertRst.rst = true ∧ (booted [] []).assertRst.Inv :=
  ⟨⟨booted [] [], _, booted_inv _ _, rfl, by decide⟩, by decide, { booted_inv [] [] with }⟩
theorem witness_RegisterFilesHaveTheListedWriters :
    (∃ t, exec .measure (booted [] []) = .next t) ∧ writesCfg .measure = false ∧ writesSavedMode .standby = false ∧
      writesCalibration .resetDevice = false ∧ writesSnapshot (.readReg 0x02#8) = false ∧ writesReadData .measure = false :=
  ⟨⟨_, rfl⟩, by decide⟩
theorem witness_OnlyAllowedTransactionsAreIssued : ∃ t, exec .init (booted [.ack, .ack] []) = .next t := ⟨_, rfl⟩
theorem witness_StepKeepsParametersAndHistory : ∃ t, step (booted [] []) = .next t ∧ (booted [] []).rst = false :=
  ⟨_, rfl, by decide⟩
/-- The two states differ in STATUS and ERR_STICKY. -/
theorem witness_NoCommandReadsFlagsOrErrorRecord :
    let s' : State := { booted [.ack] [] with regs := { Regs.reset with status := 3#4, errSticky := 0x008#9 } }
    (booted [.ack] []).withoutRecords = s'.withoutRecords ∧
      (∃ t, exec .standby (booted [.ack] []) = .next t ∧ t.busy = false) ∧ ∃ t', exec .standby s' = .next t' :=
  ⟨rfl, ⟨_, rfl, by decide⟩, ⟨_, rfl⟩⟩
theorem witness_StandbyThenResumeRestoresTheWord :
    ((booted [.ack, .ack] []).Inv ∧ (booted [.ack, .ack] []).writeAnswers = .ack :: .ack :: [] ∧
      (booted [.ack, .ack] []).regs.cfg.mode ≠ (booted [.ack, .ack] []).params.powerDownCode) ∧
    ((inPowerDown [.ack, .ack]).Inv ∧ (inPowerDown [.ack, .ack]).writeAnswers = .ack :: .ack :: [] ∧
      (inPowerDown [.ack, .ack]).regs.cfg.mode = (inPowerDown [.ack, .ack]).params.powerDownCode) :=
  ⟨⟨booted_inv _ _, rfl, by decide⟩, ⟨inPowerDown_inv _, rfl, by decide⟩⟩
theorem witness_PseudoInstructionsExpand :
    ∃ t, exec (.applyConfig (unpack 0x399F#16)) (booted [.ack] []) = .next t := ⟨_, rfl⟩
theorem witness_AssemblerEmitsTheEncodedCommand :
    (AsmLine.rdreg (.named .current)).wellFormed = true ∧ (AsmLine.configw 0x3FFF).wellFormed = true ∧
      (AsmLine.configw 0x4000).wellFormed = false ∧ (AsmLine.setmode 8).wellFormed = false := by decide

/-- Both values of each valid flag. -/
theorem witness_OutputPortsShowTheirRegisters :
    (booted [] []).rdataValidPort = false ∧ (booted [] []).calValidPort = false ∧ (booted [] []).snapValidPort = false ∧
      (calibrated [] []).calValidPort = true ∧
      ({ booted [] [] with ports := { Regs.reset with rdata := some 7#16, snap := some default } } : State).rdataValidPort =
        true ∧
      ({ booted [] [] with ports := { Regs.reset with rdata := some 7#16, snap := some default } } : State).snapValidPort =
        true := ⟨rfl, rfl, rfl, rfl, rfl, rfl⟩
/-- A completed command, with a value in each file, and one that is stuck. -/
theorem witness_OutputPortsFollowTheCompletedCommand :
    (∃ t w, exec (.readReg 0x02#8) (calibrated [.ack] [.data 1#8 2#8]) = .next t ∧ t.busy = false ∧
      t.regs.rdata = some w ∧ t.regs.cal = some cal3) ∧
    (∃ t n, exec .measure (calibrated [.ack, .ack, .ack, .ack, .ack]
      [.data 1#8 2#8, .data 3#8 4#8, .data 5#8 6#8, .data 7#8 8#8]) = .next t ∧ t.busy = false ∧ t.regs.snap = some n) ∧
    (∃ t, exec .standby (calibrated [.noAnswer] []) = .next t ∧ t.busy = true ∧
      (calibrated [.noAnswer] []).calValidPort = true) :=
  ⟨⟨_, _, rfl, rfl, rfl, rfl⟩, ⟨_, _, rfl, rfl, rfl⟩, ⟨_, rfl, rfl, rfl⟩⟩
theorem witness_UnsignedBusAndConfigWordsReadAsTheirFormats :
    regDecode 0x03#8 = some (.power, .readOnly, .unsigned) ∧ regDecode 0x05#8 = some (.calibration, .readWrite, .unsigned) ∧
      regDecode 0x02#8 = some (.busVoltage, .readOnly, .bus) ∧ regDecode 0x00#8 = some (.config, .readWrite, .config) := by
  decide
/-- The calibrated block whose first n writes are acknowledged and first m reads answered, with these outcomes after them. -/
def answeredUpTo (n m : Nat) (ws : List WriteOutcome) (rs : List ReadOutcome) : State :=
  let d : List ReadOutcome := [.data 1#8 2#8, .data 3#8 4#8, .data 5#8 6#8, .data 7#8 8#8]
  calibrated ((List.replicate n WriteOutcome.ack).append ws) ((d.take m).append rs)

/-- The first and the last row of either list: the transaction fails there, with the number of events the row gives. -/
theorem witness_MeasureStopsAtItsFirstUnsuccessfulTransaction :
    (answeredUpTo 0 0 [.err] []).regs.cal = some cal3 ∧
      seen (exec .measure (answeredUpTo 0 0 [.err] [])) (fun t => t.trace.length) = some 1 ∧
      seen (exec .measure (answeredUpTo 4 3 [.noAnswer] [])) (fun t => t.trace.length) = some 8 ∧
      seen (exec .measure (answeredUpTo 1 0 [] [.noAnswer])) (fun t => t.trace.length) = some 2 ∧
      seen (exec .measure (answeredUpTo 5 3 [] [.err])) (fun t => t.trace.length) = some 9 := by decide
/-- 1.0 and 2.0, whose sum is not zero, and a zero divisor. -/
theorem witness_OperationsRoundTheExactResultOnce :
    fpOfBits 0x3FF0000000000000#64 = .finite false (2 ^ 1074) ∧ fpOfBits 0x4000000000000000#64 = .finite false (2 ^ 1075) ∧
      fpOfBits 0x8000000000000000#64 = .finite true 0 ∧ 0 < 2 ^ 1075 ∧
      signedUnits false (2 ^ 1074) + signedUnits false (2 ^ 1075) ≠ 0 := by decide +kernel
theorem witness_OverflowGivesAnInfinity :
    (0 < 1) ∧ (2 ^ 2098 - 2 ^ 2044) * 1 ≤ 2 ^ 2098 - 2 ^ 2044 ∧ ¬(2 ^ 1202 - 2 ^ 1177) * 1 ≤ 2 ^ 1202 - 2 ^ 1177 - 1 := by
  decide +kernel

end Sys2Proof.Tests
end

