-- ==== Sys2Proof/Proofs/StepFrame.lean ====
section
/-! What every command and every step keep (00_scope.md R24, R26; 20_memory.md R52). -/

namespace Sys2Proof.Machine

/-- No command writes a parameter, and a command only adds events to the trace. -/
theorem exec_keeps_params_and_history {i : Instr} {s t : State} (h : exec i s = .next t) :
    t.params = s.params ∧ ∃ events, t.trace = s.trace ++ events := by
  rcases exec_cases h with ⟨e, -, rfl⟩ | ⟨q, events, ws, rs, n, -, -, hend⟩
  · exact ⟨rfl, [], by simp⟩
  · rcases hend with ⟨rfl, -⟩ | ⟨before, last, -, -, ⟨-, rfl⟩ | ⟨-, rfl⟩⟩ <;> exact ⟨rfl, events, rfl⟩

/-- A latched word runs as the command it decodes to, or only takes the error of an illegal word (R72). -/
theorem runLatched_cases {s t : State} (h : runLatched s = .next t) :
    (∃ i, exec i s = .next t) ∨ t = completeWithError (.illegalCommand s.cw) (beginCommand s) := by
  unfold runLatched at h
  split at h
  · next i _ => exact .inl ⟨i, h⟩
  · injection h with h
    exact .inr h.symm

/-- Settles O49: by the ways a step can end; a reset keeps the parameters, waiting keeps both, and the two steps that run a
command do what every command does. -/
theorem stepKeepsParametersAndHistory : Obligations.StepKeepsParametersAndHistory := by
  intro s t h
  rcases step_cases h with ⟨hrst, rfl⟩ | ⟨-, -, -, hinit⟩ | ⟨-, -, -, rfl⟩ | ⟨o, rest, -, -, -, hrun⟩
  case inl => exact ⟨rfl, by simp [hrst]⟩
  case inr.inl =>
    obtain ⟨hparams, htrace⟩ := exec_keeps_params_and_history hinit
    exact ⟨hparams, fun _ => htrace⟩
  case inr.inr.inl => exact ⟨rfl, fun _ => ⟨[], by simp⟩⟩
  case inr.inr.inr =>
    rcases runLatched_cases hrun with ⟨i, hexec⟩ | rfl
    · obtain ⟨hparams, htrace⟩ := exec_keeps_params_and_history hexec
      exact ⟨hparams, fun _ => htrace⟩
    · exact ⟨rfl, fun _ => ⟨[], by simp⟩⟩

/-- A command that has completed has put its registers on the ports; one that is stuck has left the ports alone (R144). -/
theorem exec_ports {i : Instr} {s t : State} (h : exec i s = .next t) :
    (t.busy = false ∧ t.ports = t.regs) ∨ (t.busy = true ∧ t.ports = s.ports) := by
  rcases exec_cases h with ⟨e, -, rfl⟩ | ⟨q, events, ws, rs, n, -, -, hend⟩
  · exact .inl ⟨rfl, rfl⟩
  · rcases hend with ⟨rfl, -⟩ | ⟨before, last, -, -, ⟨-, rfl⟩ | ⟨-, rfl⟩⟩
    · exact .inl ⟨rfl, rfl⟩
    · exact .inl ⟨rfl, rfl⟩
    · exact .inr ⟨rfl, rfl⟩

/-! While a valid flag is 1, the port it guards is a function of the register copy alone. -/

theorem State.rdataPort_eq_of_ports_eq {s t : State} (h : t.ports = s.ports) (hv : s.rdataValidPort = true) :
    t.rdataPort = s.rdataPort := by
  obtain ⟨w, hw⟩ := Option.isSome_iff_exists.mp hv
  rw [State.rdataPort_of_some hw, State.rdataPort_of_some (h ▸ hw)]

theorem State.calResultPort_eq_of_ports_eq {s t : State} (h : t.ports = s.ports) (reg : CalResult → RealBits)
    (hv : s.calValidPort = true) : t.calResultPort reg = s.calResultPort reg := by
  obtain ⟨c, hc⟩ := Option.isSome_iff_exists.mp hv
  rw [State.calResultPort_of_some hc, State.calResultPort_of_some (h ▸ hc)]

theorem State.snapshotPort_eq_of_ports_eq {α : Type} {s t : State} (h : t.ports = s.ports) (reg : Snapshot → α)
    (hv : s.snapValidPort = true) : t.snapshotPort reg = s.snapshotPort reg := by
  obtain ⟨n, hn⟩ := Option.isSome_iff_exists.mp hv
  rw [State.snapshotPort_of_some hn, State.snapshotPort_of_some (h ▸ hn)]

/-- Settles O55: each port is a function of the register copy, which holds the registers after a completed command and is
what it was after a stuck one. -/
theorem outputPortsFollowTheCompletedCommand : Obligations.OutputPortsFollowTheCompletedCommand := by
  intro i s t h
  rcases exec_ports h with ⟨hbusy, hports⟩ | ⟨hbusy, hports⟩
  · refine ⟨fun _ => ⟨?_, ?_, ?_, ?_, ?_, ?_, ?_, ?_, ?_, fun w hw => State.rdataPort_of_some (hports ▸ hw),
      fun c reg hc => State.calResultPort_of_some (hports ▸ hc) reg,
      fun n _ reg hn => State.snapshotPort_of_some (hports ▸ hn) reg⟩, by simp [hbusy]⟩
    all_goals simp only [State.cmdReady, State.cfgWordPort, State.savedModePort, State.statusPort, State.errStickyPort,
      State.calValuePort, State.rdataValidPort, State.calValidPort, State.snapValidPort, hbusy, hports, Bool.not_false]
  · refine ⟨by simp [hbusy], fun _ => ⟨?_, ?_, ?_, ?_, ?_, ?_, ?_, ?_, ?_, State.rdataPort_eq_of_ports_eq hports,
      fun reg => State.calResultPort_eq_of_ports_eq hports reg,
      fun _ reg => State.snapshotPort_eq_of_ports_eq hports reg⟩⟩
    all_goals simp only [State.cmdReady, State.cfgWordPort, State.savedModePort, State.statusPort, State.errStickyPort,
      State.calValuePort, State.rdataValidPort, State.calValidPort, State.snapValidPort, hbusy, hports, Bool.not_true]

end Sys2Proof.Machine
end

