-- ==== Sys2Proof/Proofs/Rounding.lean ====
section
/-! Rounding to the format (00_scope.md R18, R23): the result lies on a grid of multiples of 2 ^ roundShift, is nearest to the exact
value there, and no value of the format off that grid comes as near. -/

namespace Sys2Proof.Machine

/-! ### The nearest whole number -/

/-- The nearest whole number is at most half a denominator away, and even where it is exactly that far away. -/
theorem roundQuotient_spec (num : Nat) {den : Nat} (hden : 0 < den) :
    2 * num ≤ 2 * (roundQuotient num den * den) + den ∧ 2 * (roundQuotient num den * den) ≤ 2 * num + den ∧
      ((2 * num = 2 * (roundQuotient num den * den) + den ∨ 2 * (roundQuotient num den * den) = 2 * num + den) →
        roundQuotient num den % 2 = 0) := by
  have hdiv : num / den * den + num % den = num := Nat.div_add_mod' num den
  have hmod : num % den < den := Nat.mod_lt num hden
  have hsucc : (num / den + 1) * den = num / den * den + den := Nat.succ_mul _ _
  unfold roundQuotient
  simp only
  split
  · omega
  · split
    · omega
    · rcases Nat.mod_two_eq_zero_or_one (num / den) with heven | hodd
      · rw [heven, Nat.add_zero]
        omega
      · rw [hodd]
        omega

/-- The nearest whole number is the quotient or the one above. -/
theorem roundQuotient_cases (num den : Nat) :
    roundQuotient num den = num / den ∨ roundQuotient num den = num / den + 1 := by
  unfold roundQuotient
  simp only
  split
  · exact .inl rfl
  · split <;> omega

/-- No whole number is nearer to num / den than the rounded one; another one equally near is its neighbour, and the rounded one is
even. -/
theorem roundQuotient_nearest (num : Nat) {den : Nat} (hden : 0 < den) (k : Nat) :
    ((roundQuotient num den * den : Nat) - (num : Int)).natAbs ≤ ((k * den : Nat) - (num : Int)).natAbs ∧
      (((k * den : Nat) - (num : Int)).natAbs = ((roundQuotient num den * den : Nat) - (num : Int)).natAbs →
        k ≠ roundQuotient num den →
        roundQuotient num den % 2 = 0 ∧ ((k : Int) - roundQuotient num den).natAbs = 1) := by
  obtain ⟨hle, hge, heven⟩ := roundQuotient_spec num hden
  generalize roundQuotient num den = r at hle hge heven
  rcases eq_or_ne k r with rfl | hne
  · exact ⟨le_rfl, fun _ h => absurd rfl h⟩
  · obtain ⟨d, hd⟩ : ∃ d, ((k : Int) - r).natAbs = d + 1 := ⟨((k : Int) - r).natAbs - 1, by omega⟩
    have hgap : (((k * den : Nat) : Int) - (r * den : Nat)).natAbs = d * den + den := by
      push_cast
      rw [← Int.sub_mul, Int.natAbs_mul, hd, Int.natAbs_natCast, Nat.succ_mul]
    refine ⟨by omega, fun htie _ => ⟨heven (by omega), ?_⟩⟩
    have hzero : d * den = 0 := by omega
    rcases Nat.mul_eq_zero.mp hzero with rfl | h0 <;> omega

/-! ### The grid the result lies on -/

/-- A significand of at most k bits, or 2 ^ k itself, keeps its scaled value within the power of two. -/
theorem significand_mul_two_pow_le {m k e l : Nat} (hm : m ≤ 2 ^ k) (h : k + e ≤ l) : m * 2 ^ e ≤ 2 ^ l :=
  calc m * 2 ^ e ≤ 2 ^ k * 2 ^ e := Nat.mul_le_mul_right _ hm
    _ = 2 ^ (k + e) := (Nat.pow_add 2 k e).symm
    _ ≤ 2 ^ l := Nat.pow_le_pow_right (by decide) h

theorem fpPrecision_pos (fmt : FpFormat) : 0 < fpPrecision fmt := by cases fmt <;> decide

/-- The rounded significand has at most fpPrecision bits, or is the power of two above them. -/
theorem roundQuotient_le_two_pow_precision (fmt : FpFormat) (num den : Nat) :
    roundQuotient num (den * 2 ^ roundShift fmt num den) ≤ 2 ^ fpPrecision fmt := by
  suffices h : num / (den * 2 ^ roundShift fmt num den) < 2 ^ fpPrecision fmt by
    rcases roundQuotient_cases num (den * 2 ^ roundShift fmt num den) with hr | hr <;> omega
  rw [← Nat.div_div_eq_div_mul]
  apply Nat.div_lt_of_lt_mul
  calc num / den < 2 ^ (Nat.log2 (num / den) + 1) := Nat.lt_log2_self
    _ ≤ 2 ^ (roundShift fmt num den + fpPrecision fmt) :=
        Nat.pow_le_pow_right (by decide) (by unfold roundShift; omega)
    _ = 2 ^ roundShift fmt num den * 2 ^ fpPrecision fmt := Nat.pow_add 2 _ _

/-- Where the shift is more than the format's least, the first value of its binade, 2 ^ (fpPrecision - 1) grid steps, is not above
the exact one. -/
theorem binade_le_of_minShift_lt {fmt : FpFormat} {num den : Nat} (h : fpMinShift fmt < roundShift fmt num den) :
    2 ^ (fpPrecision fmt - 1) * 2 ^ roundShift fmt num den ≤ num / den := by
  have hp := fpPrecision_pos fmt
  unfold roundShift at h ⊢
  rw [← Nat.pow_add]
  calc 2 ^ (fpPrecision fmt - 1 + max (fpMinShift fmt) (Nat.log2 (num / den) + 1 - fpPrecision fmt))
      = 2 ^ Nat.log2 (num / den) := by congr 1; omega
    _ ≤ num / den := Nat.log2_self_le (by intro h0; simp [h0] at h; omega)

/-- Where the shift is more than the format's least, the result is not below the first value of its binade either. -/
theorem binade_le_roundUnits {fmt : FpFormat} {num den : Nat} (h : fpMinShift fmt < roundShift fmt num den) :
    2 ^ (fpPrecision fmt - 1) * 2 ^ roundShift fmt num den ≤ roundUnits fmt num den := by
  have hquot : 2 ^ (fpPrecision fmt - 1) ≤ num / (den * 2 ^ roundShift fmt num den) := by
    rw [← Nat.div_div_eq_div_mul]
    exact (Nat.le_div_iff_mul_le (by positivity)).mpr (binade_le_of_minShift_lt h)
  refine Nat.mul_le_mul_right _ (hquot.trans ?_)
  rcases roundQuotient_cases num (den * 2 ^ roundShift fmt num den) with hr | hr <;> omega

/-- A value of the format is a multiple of the grid step, or lies below the binade of the exact value. -/
theorem formatValue_on_grid_or_below {fmt : FpFormat} {num den m e : Nat} (hm : m ≤ 2 ^ fpPrecision fmt)
    (he : fpMinShift fmt ≤ e) :
    (∃ k, m * 2 ^ e = k * 2 ^ roundShift fmt num den) ∨
      ∃ k, m * 2 ^ e < k * 2 ^ roundShift fmt num den ∧ k * 2 ^ roundShift fmt num den ≤ num / den := by
  rcases Nat.lt_or_ge e (roundShift fmt num den) with hlt | hge
  · have hle : m * 2 ^ e ≤ 2 ^ (fpPrecision fmt - 1) * 2 ^ roundShift fmt num den := by
      rw [← Nat.pow_add]
      exact significand_mul_two_pow_le hm (by omega)
    rcases hle.eq_or_lt with heq | hbelow
    · exact .inl ⟨_, heq⟩
    · exact .inr ⟨_, hbelow, binade_le_of_minShift_lt (by omega)⟩
  · refine .inl ⟨m * 2 ^ (e - roundShift fmt num den), ?_⟩
    rw [Nat.mul_assoc, ← Nat.pow_add, Nat.sub_add_cancel hge]

/-- A value of k grid steps, with the step counted in units of 1 / den as roundUnits does. -/
theorem grid_value_mul_den (k e den : Nat) : k * 2 ^ e * den = k * (den * 2 ^ e) := by ring

/-- A value below k grid steps, which are not above the exact value, is farther from it than the result. -/
theorem roundUnits_strictly_nearer_of_below {fmt : FpFormat} {num den k v : Nat} (hden : 0 < den)
    (hv : v < k * 2 ^ roundShift fmt num den) (hk : k * 2 ^ roundShift fmt num den ≤ num / den) :
    ((roundUnits fmt num den * den : Nat) - (num : Int)).natAbs < ((v * den : Nat) - (num : Int)).natAbs := by
  have hnear := (roundQuotient_nearest num (den := den * 2 ^ roundShift fmt num den) (by positivity) k).1
  have hbelow : v * den < k * 2 ^ roundShift fmt num den * den := Nat.mul_lt_mul_of_pos_right hv hden
  have hexact : k * 2 ^ roundShift fmt num den * den ≤ num := (Nat.le_div_iff_mul_le hden).mp hk
  unfold roundUnits
  simp only [grid_value_mul_den] at *
  omega

/-- No value of the format is nearer to the exact one than the result. -/
theorem roundUnits_nearest {fmt : FpFormat} {num den m e : Nat} (hden : 0 < den) (hm : m ≤ 2 ^ fpPrecision fmt)
    (he : fpMinShift fmt ≤ e) :
    ((roundUnits fmt num den * den : Nat) - (num : Int)).natAbs ≤ ((m * 2 ^ e * den : Nat) - (num : Int)).natAbs := by
  rcases formatValue_on_grid_or_below (num := num) (den := den) hm he with ⟨k, hk⟩ | ⟨k, hbelow, hexact⟩
  · rw [hk]
    unfold roundUnits
    simp only [grid_value_mul_den]
    exact (roundQuotient_nearest num (by positivity) k).1
  · exact (roundUnits_strictly_nearer_of_below hden hbelow hexact).le

/-- Where another value of the format is equally near, it is one grid step away, and the result has the even significand. -/
theorem roundUnits_tie {fmt : FpFormat} {num den m e : Nat} (hden : 0 < den) (hm : m ≤ 2 ^ fpPrecision fmt)
    (he : fpMinShift fmt ≤ e) (hne : m * 2 ^ e ≠ roundUnits fmt num den)
    (htie : ((m * 2 ^ e * den : Nat) - (num : Int)).natAbs = ((roundUnits fmt num den * den : Nat) - (num : Int)).natAbs) :
    roundQuotient num (den * 2 ^ roundShift fmt num den) % 2 = 0 ∧
      ((m * 2 ^ e : Nat) - (roundUnits fmt num den : Int)).natAbs = 2 ^ roundShift fmt num den := by
  rcases formatValue_on_grid_or_below (num := num) (den := den) hm he with ⟨k, hk⟩ | ⟨k, hbelow, hexact⟩
  · rw [hk] at hne htie ⊢
    unfold roundUnits at hne htie ⊢
    simp only [grid_value_mul_den] at htie
    obtain ⟨heven, hone⟩ := (roundQuotient_nearest num (by positivity) k).2 htie (fun h => hne (by rw [h]))
    refine ⟨heven, ?_⟩
    push_cast
    rw [← Int.sub_mul, Int.natAbs_mul, hone]
    simp
  · exact absurd htie (roundUnits_strictly_nearer_of_below hden hbelow hexact).ne'

/-- Settles O39: the result is roundQuotient grid steps of 2 ^ roundShift, nearest and tie as
roundUnits_nearest and roundUnits_tie have them. -/
theorem roundingGivesANearestValue : Obligations.RoundingGivesANearestValue := by
  intro fmt num den hden
  refine ⟨⟨_, _, roundQuotient_le_two_pow_precision fmt num den, Nat.le_max_left _ _, rfl⟩,
    fun m e hm he => roundUnits_nearest hden hm.le he, fun m e hm he hne htie => ?_⟩
  obtain ⟨heven, hgap⟩ := roundUnits_tie hden hm he hne htie
  exact ⟨_, _, roundQuotient_le_two_pow_precision fmt num den, Nat.le_max_left _ _, rfl, heven, hgap⟩

/-! ### Exact results -/

/-- A value of the format is rounded to itself. -/
theorem roundUnits_of_formatValue {fmt : FpFormat} {den m e : Nat} (hden : 0 < den) (hm : m ≤ 2 ^ fpPrecision fmt)
    (he : fpMinShift fmt ≤ e) : roundUnits fmt (m * 2 ^ e * den) den = m * 2 ^ e := by
  have hnear := roundUnits_nearest (num := m * 2 ^ e * den) hden hm he
  exact Nat.eq_of_mul_eq_mul_right hden (by omega)

end Sys2Proof.Machine
end

