-- ==== Sys2Proof/Proofs/Overflow.lean ====
section
/-! Where rounding overflows to an infinity (00_scope.md R18): half a grid step below the first power of two out of range. -/

namespace Sys2Proof.Machine

/-- A binade whose last shift is still in range lies between the format's least shift and the overflow. -/
theorem fpMinShift_lt_overflow_sub_precision (fmt : FpFormat) :
    fpMinShift fmt < fpOverflowShift fmt - fpPrecision fmt := by cases fmt <;> decide

/-- The least magnitude that overflows, in units: the midpoint of the largest finite value and the power of two above it. -/
def overflowThreshold (fmt : FpFormat) : Nat :=
  2 ^ fpOverflowShift fmt - 2 ^ (fpOverflowShift fmt - fpPrecision fmt - 1)

/-- The overflow power is fpPrecision bits above the last shift in range, and the threshold is half a grid step below it. -/
theorem two_mul_overflowThreshold (fmt : FpFormat) :
    2 ^ fpOverflowShift fmt = 2 ^ fpPrecision fmt * 2 ^ (fpOverflowShift fmt - fpPrecision fmt) ∧
      2 * overflowThreshold fmt + 2 ^ (fpOverflowShift fmt - fpPrecision fmt) = 2 * 2 ^ fpOverflowShift fmt := by
  have hlt := fpMinShift_lt_overflow_sub_precision fmt
  obtain ⟨a, ha⟩ : ∃ a, fpOverflowShift fmt = fpPrecision fmt + (a + 1) :=
    ⟨fpOverflowShift fmt - fpPrecision fmt - 1, by omega⟩
  have hle : 2 ^ a ≤ 2 ^ fpOverflowShift fmt := Nat.pow_le_pow_right (by decide) (by omega)
  have hsub : fpOverflowShift fmt - fpPrecision fmt = a + 1 := by omega
  refine ⟨by rw [hsub, ← Nat.pow_add, ← ha], ?_⟩
  rw [overflowThreshold, hsub, Nat.add_sub_cancel, Nat.pow_succ]
  omega

/-- A magnitude below the threshold is rounded below the overflow power: the largest finite value is nearer. -/
theorem roundUnits_lt_of_lt_threshold {fmt : FpFormat} {num den : Nat} (hden : 0 < den)
    (h : num < overflowThreshold fmt * den) : roundUnits fmt num den < 2 ^ fpOverflowShift fmt := by
  obtain ⟨hpow, hthr⟩ := two_mul_overflowThreshold fmt
  have hnear := roundUnits_nearest (num := num) hden (Nat.sub_le (2 ^ fpPrecision fmt) 1)
    (fpMinShift_lt_overflow_sub_precision fmt).le
  have hlargest : (2 ^ fpPrecision fmt - 1) * 2 ^ (fpOverflowShift fmt - fpPrecision fmt) +
      2 ^ (fpOverflowShift fmt - fpPrecision fmt) = 2 ^ fpOverflowShift fmt := by
    rw [hpow, ← Nat.succ_mul, Nat.succ_eq_add_one, Nat.sub_add_cancel Nat.one_le_two_pow]
  have hstep : 0 < 2 ^ (fpOverflowShift fmt - fpPrecision fmt) * den := by positivity
  generalize (2 ^ fpPrecision fmt - 1) * 2 ^ (fpOverflowShift fmt - fpPrecision fmt) = largest at hnear hlargest
  by_contra! hover
  have hover := Nat.mul_le_mul_right den hover
  have hthr := congrArg (· * den) hthr
  have hlargest := congrArg (· * den) hlargest
  simp only [Nat.add_mul, Nat.mul_assoc 2] at hthr hlargest
  omega

/-- From the threshold on, the shift is at least the last one in range. -/
theorem le_roundShift_of_threshold_le {fmt : FpFormat} {num den : Nat} (hden : 0 < den)
    (h : overflowThreshold fmt * den ≤ num) : fpOverflowShift fmt - fpPrecision fmt ≤ roundShift fmt num den := by
  obtain ⟨-, hthr⟩ := two_mul_overflowThreshold fmt
  have hlt := fpMinShift_lt_overflow_sub_precision fmt
  have hp := fpPrecision_pos fmt
  have hquot : overflowThreshold fmt ≤ num / den := (Nat.le_div_iff_mul_le hden).mpr h
  have hstep : 2 ^ (fpOverflowShift fmt - fpPrecision fmt) ≤ 2 ^ (fpOverflowShift fmt - 1) :=
    Nat.pow_le_pow_right (by decide) (by omega)
  have hhalf : 2 ^ fpOverflowShift fmt = 2 * 2 ^ (fpOverflowShift fmt - 1) := by
    rw [← Nat.pow_succ', Nat.succ_eq_add_one, Nat.sub_add_cancel (by omega)]
  have hpos : 0 < 2 ^ (fpOverflowShift fmt - 1) := by positivity
  have hlog : fpOverflowShift fmt - 1 ≤ Nat.log2 (num / den) := (Nat.le_log2 (by omega)).mpr (by omega)
  unfold roundShift
  omega

/-- In the last binade in range, a magnitude from the threshold on is rounded up to the overflow power: at the threshold itself by
the tie, since the largest significand is odd. -/
theorem two_pow_precision_le_roundQuotient {fmt : FpFormat} {num den : Nat} (hden : 0 < den)
    (h : overflowThreshold fmt * den ≤ num) :
    2 ^ fpPrecision fmt ≤ roundQuotient num (den * 2 ^ (fpOverflowShift fmt - fpPrecision fmt)) := by
  obtain ⟨hpow, hthr⟩ := two_mul_overflowThreshold fmt
  have heven : 2 ^ fpPrecision fmt % 2 = 0 := by cases fmt <;> rfl
  have hthr := congrArg (· * den) hthr
  simp only [hpow, Nat.add_mul, Nat.mul_assoc 2, grid_value_mul_den, Nat.mul_comm (2 ^ _) den] at hthr
  have hstep : 0 < den * 2 ^ (fpOverflowShift fmt - fpPrecision fmt) := by positivity
  obtain ⟨hle, -, htie⟩ := roundQuotient_spec num hstep
  generalize roundQuotient num (den * 2 ^ (fpOverflowShift fmt - fpPrecision fmt)) = r at hle htie ⊢
  generalize den * 2 ^ (fpOverflowShift fmt - fpPrecision fmt) = step at *
  by_contra! hr
  have hmul := Nat.mul_le_mul_right step (Nat.succ_le_of_lt hr)
  have hsucc : r.succ * step = r * step + step := Nat.succ_mul _ _
  have hlast : r.succ = 2 ^ fpPrecision fmt := Nat.eq_of_mul_eq_mul_right hstep (by omega)
  have hodd := htie (.inl (by omega))
  omega

/-- A magnitude from the threshold on is rounded to at least the overflow power. -/
theorem le_roundUnits_of_threshold_le {fmt : FpFormat} {num den : Nat} (hden : 0 < den)
    (h : overflowThreshold fmt * den ≤ num) : 2 ^ fpOverflowShift fmt ≤ roundUnits fmt num den := by
  have hmin := fpMinShift_lt_overflow_sub_precision fmt
  have hp := fpPrecision_pos fmt
  rcases (le_roundShift_of_threshold_le hden h).eq_or_lt with hlast | hbeyond
  · rw [roundUnits, ← hlast, (two_mul_overflowThreshold fmt).1]
    exact Nat.mul_le_mul_right _ (two_pow_precision_le_roundQuotient hden h)
  · calc 2 ^ fpOverflowShift fmt
        ≤ 2 ^ (fpPrecision fmt - 1 + roundShift fmt num den) := Nat.pow_le_pow_right (by decide) (by omega)
      _ = 2 ^ (fpPrecision fmt - 1) * 2 ^ roundShift fmt num den := Nat.pow_add 2 _ _
      _ ≤ roundUnits fmt num den := binade_le_roundUnits (hmin.trans hbeyond)

/-- Rounding gives an infinity exactly from the threshold on. -/
theorem fpRound_eq_ite_threshold (fmt : FpFormat) (neg : Bool) (num : Nat) {den : Nat} (hden : 0 < den) :
    fpRound fmt neg num den =
      if overflowThreshold fmt * den ≤ num then .inf neg else .finite neg (roundUnits fmt num den) := by
  unfold fpRound
  split_ifs with hin hthr hthr
  · exact absurd (le_roundUnits_of_threshold_le hden hthr) (by omega)
  · rfl
  · rfl
  · exact absurd (roundUnits_lt_of_lt_threshold hden (by omega)) hin

theorem overflowThreshold_binary64 : overflowThreshold .binary64 = 2 ^ 2098 - 2 ^ 2044 := by
  simp only [overflowThreshold, fpOverflowShift, fpPrecision, Nat.reduceSub]

theorem overflowThreshold_binary32 : overflowThreshold .binary32 = 2 ^ 1202 - 2 ^ 1177 := by
  simp only [overflowThreshold, fpOverflowShift, fpPrecision, Nat.reduceSub]

/-- Settles O59: the thresholds of the two formats. -/
theorem overflowGivesAnInfinity : Obligations.OverflowGivesAnInfinity := by
  intro neg num den hden
  constructor
  · rw [fpRound_eq_ite_threshold .binary64 neg num hden, overflowThreshold_binary64]
  · rw [fpRound_eq_ite_threshold .binary32 neg num hden, overflowThreshold_binary32]

end Sys2Proof.Machine
end

