-- ==== Sys2Proof/Proofs/ExactResults.lean ====
section
/-! A rounded value survives its pattern (00_scope.md R23, 20_memory.md R56), so an operation's pattern reads back as its exact
result rounded once. -/

namespace Sys2Proof.Machine

/-! ### Reading a pattern back -/

/-- The sign bit and the two fields of a pattern put together from a sign and a magnitude. -/
theorem fpOfBits_signed_magnitude (neg : Bool) {mag : Nat} (hmag : mag < 2 ^ 63) :
    fpOfBits (BitVec.ofNat 64 ((if neg then 2 ^ 63 else 0) + mag)) =
      if mag / 2 ^ 52 = 2047 then (if mag % 2 ^ 52 = 0 then .inf neg else .nan)
      else if mag / 2 ^ 52 = 0 then .finite neg (mag % 2 ^ 52)
      else .finite neg ((2 ^ 52 + mag % 2 ^ 52) * 2 ^ (mag / 2 ^ 52 - 1)) := by
  have hbit : (if neg then 2 ^ 63 else 0) = neg.toNat * 2 ^ 63 := by cases neg <;> rfl
  have hone : neg.toNat ≤ 1 := Bool.toNat_le neg
  rw [hbit]
  have hnat : (BitVec.ofNat 64 (neg.toNat * 2 ^ 63 + mag)).toNat = neg.toNat * 2 ^ 63 + mag := by
    rw [BitVec.toNat_ofNat, Nat.mod_eq_of_lt (by omega)]
  have hsign : (BitVec.ofNat 64 (neg.toNat * 2 ^ 63 + mag)).msb = neg := by
    rw [BitVec.msb_eq_decide, hnat]
    cases neg
    · simpa using hmag
    · simp
  have hexpo : (neg.toNat * 2 ^ 63 + mag) / 2 ^ 52 % 2048 = mag / 2 ^ 52 := by omega
  have hfrac : (neg.toNat * 2 ^ 63 + mag) % 2 ^ 52 = mag % 2 ^ 52 := by omega
  simp only [fpOfBits, hsign, hnat, hexpo, hfrac]

theorem fpOfBits_fpToBits_inf (neg : Bool) : fpOfBits (fpToBits (.inf neg)) = .inf neg := by
  rw [fpToBits, fpOfBits_signed_magnitude neg (by decide)]
  rfl

/-- A number of units with at most 53 significant bits is a multiple of its binade's step. -/
theorem binade_step_dvd {m e : Nat} (hm : m ≤ 2 ^ 53) (hbig : 2 ^ 52 ≤ m * 2 ^ e) :
    2 ^ (Nat.log2 (m * 2 ^ e) - 52) ∣ m * 2 ^ e := by
  rcases Nat.lt_or_ge e (Nat.log2 (m * 2 ^ e) - 52) with hlt | hge
  · have hle : m * 2 ^ e ≤ 2 ^ Nat.log2 (m * 2 ^ e) := significand_mul_two_pow_le hm (by omega)
    have heq : m * 2 ^ e = 2 ^ Nat.log2 (m * 2 ^ e) := hle.antisymm (Nat.log2_self_le (by omega))
    exact (Nat.pow_dvd_pow 2 (Nat.sub_le _ _)).trans (dvd_of_eq heq.symm)
  · exact (Nat.pow_dvd_pow 2 hge).trans (Nat.dvd_mul_left _ _)

/-- The significand of a number of units, in its binade's steps, has exactly 53 bits. -/
theorem significand_bounds {u : Nat} (h : 2 ^ 52 ≤ u) :
    2 ^ 52 ≤ u / 2 ^ (Nat.log2 u - 52) ∧ u / 2 ^ (Nat.log2 u - 52) < 2 ^ 53 := by
  have hlog : 52 ≤ Nat.log2 u := (Nat.le_log2 (by omega)).mpr h
  constructor
  · rw [Nat.le_div_iff_mul_le (by positivity), ← Nat.pow_add, Nat.add_sub_cancel' hlog]
    exact Nat.log2_self_le (by omega)
  · rw [Nat.div_lt_iff_lt_mul (by positivity), ← Nat.pow_add, show 53 + (Nat.log2 u - 52) = Nat.log2 u + 1 by omega]
    exact Nat.lt_log2_self

/-- The pattern of a value below the first binade: its units are its fraction field. -/
theorem fpOfBits_fpToBits_of_lt (neg : Bool) {u : Nat} (h : u < 2 ^ 52) :
    fpOfBits (fpToBits (.finite neg u)) = .finite neg u := by
  rw [fpToBits, fpMagnitudeBits, if_pos h, fpOfBits_signed_magnitude neg (by omega), Nat.div_eq_of_lt h, Nat.mod_eq_of_lt h]
  rfl

/-- The pattern of a value from the first binade on, when no bit of it is cut off: the exponent field numbers the binade, and the
fraction field is the significand without its first bit. -/
theorem fpOfBits_fpToBits_of_ge (neg : Bool) {u : Nat} (h : 2 ^ 52 ≤ u) (hdvd : 2 ^ (Nat.log2 u - 52) ∣ u)
    (hrange : u < 2 ^ fpOverflowShift .binary64) : fpOfBits (fpToBits (.finite neg u)) = .finite neg u := by
  obtain ⟨hlow, hhigh⟩ := significand_bounds h
  have hback : u / 2 ^ (Nat.log2 u - 52) * 2 ^ (Nat.log2 u - 52) = u := Nat.div_mul_cancel hdvd
  have hshift : Nat.log2 u - 52 < 2046 := by
    have hlog : Nat.log2 u < fpOverflowShift .binary64 := (Nat.log2_lt (by omega)).mpr hrange
    rw [fpOverflowShift] at hlog
    omega
  rw [fpToBits, fpMagnitudeBits, if_neg (Nat.not_lt.mpr h)]
  simp only
  generalize u / 2 ^ (Nat.log2 u - 52) = significand at hlow hhigh hback ⊢
  generalize Nat.log2 u - 52 = shift at hback hshift ⊢
  have hexpo : (shift * 2 ^ 52 + significand) / 2 ^ 52 = shift + 1 := by omega
  have hfrac : 2 ^ 52 + (shift * 2 ^ 52 + significand) % 2 ^ 52 = significand := by omega
  rw [fpOfBits_signed_magnitude neg (by omega), hexpo, hfrac, if_neg (by omega), if_neg (by omega), Nat.add_sub_cancel, hback]

/-- A finite value of at most 53 significant bits, in the range of binary64, is the value of its pattern. -/
theorem fpOfBits_fpToBits_finite (neg : Bool) {m e : Nat} (hm : m ≤ 2 ^ 53)
    (hrange : m * 2 ^ e < 2 ^ fpOverflowShift .binary64) :
    fpOfBits (fpToBits (.finite neg (m * 2 ^ e))) = .finite neg (m * 2 ^ e) := by
  rcases Nat.lt_or_ge (m * 2 ^ e) (2 ^ 52) with hsmall | hbig
  · exact fpOfBits_fpToBits_of_lt neg hsmall
  · exact fpOfBits_fpToBits_of_ge neg hbig (binade_step_dvd hm hbig) hrange

/-- A rounded value is the value of its pattern. -/
theorem fpOfBits_fpToBits_fpRound (fmt : FpFormat) (neg : Bool) (num den : Nat) :
    fpOfBits (fpToBits (fpRound fmt neg num den)) = fpRound fmt neg num den := by
  unfold fpRound
  split_ifs with hin
  · have hprec : 2 ^ fpPrecision fmt ≤ 2 ^ 53 := Nat.pow_le_pow_right (by decide) (by cases fmt <;> decide)
    have hrange : 2 ^ fpOverflowShift fmt ≤ 2 ^ fpOverflowShift .binary64 :=
      Nat.pow_le_pow_right (by decide) (by cases fmt <;> decide)
    exact fpOfBits_fpToBits_finite neg ((roundQuotient_le_two_pow_precision fmt num den).trans hprec)
      (Nat.lt_of_lt_of_le hin hrange)
  · exact fpOfBits_fpToBits_inf neg

/-! ### The operations on finite values -/

theorem divValue_finite_of_pos (fmt : FpFormat) (s t : Bool) (x : Nat) {y : Nat} (hy : 0 < y) :
    divValue fmt (.finite s x) (.finite t y) = fpRound fmt (s != t) (x * fpOne) y := by
  simp [divValue, hy.ne']

theorem divValue_finite_zero (fmt : FpFormat) (s t : Bool) {x : Nat} (hx : 0 < x) :
    divValue fmt (.finite s x) (.finite t 0) = .inf (s != t) := by
  simp [divValue, hx.ne']

theorem addValue_finite_of_ne_zero (fmt : FpFormat) {s t : Bool} {x y : Nat}
    (h : signedUnits s x + signedUnits t y ≠ 0) :
    addValue fmt (.finite s x) (.finite t y) =
      fpRound fmt (decide (signedUnits s x + signedUnits t y < 0)) (signedUnits s x + signedUnits t y).natAbs 1 := by
  simp [addValue, h]

/-- Settles O58: each operation is one rounding of the exact result, and the pattern of a rounded value has that value. -/
theorem operationsRoundTheExactResultOnce : Obligations.OperationsRoundTheExactResultOnce := by
  intro fmt a b sa sb x y ha hb
  refine ⟨?product, fun hy => ?quotient, fun hx hy => ?overZero, fun hsum => ?sum⟩
  case product => rw [fmul, ha, hb, mulValue, fpOfBits_fpToBits_fpRound, fpOne]
  case quotient => rw [fdiv, ha, hb, divValue_finite_of_pos _ _ _ _ hy, fpOfBits_fpToBits_fpRound, fpOne]
  case overZero => rw [fdiv, ha, hb, hy, divValue_finite_zero _ _ _ hx, fpOfBits_fpToBits_inf]
  case sum => rw [fadd, ha, hb, addValue_finite_of_ne_zero _ hsum, fpOfBits_fpToBits_fpRound]

/-! ### The conversion of an integer -/

/-- Settles O41: an integer of at most 17 bits is a value of either format, so it is rounded to itself. -/
theorem integerConversionIsExact : Obligations.IntegerConversionIsExact := by
  intro fmt n hn
  have hexact : roundUnits fmt (n.natAbs * 2 ^ 1074) 1 = n.natAbs * 2 ^ 1074 := by
    have hprec : 65536 ≤ 2 ^ fpPrecision fmt := by cases fmt <;> decide
    have hmin : fpMinShift fmt ≤ 1074 := by cases fmt <;> decide
    have hself := roundUnits_of_formatValue (den := 1) Nat.one_pos (hn.trans hprec) hmin
    rwa [Nat.mul_one] at hself
  have hrange : n.natAbs * 2 ^ 1074 < 2 ^ fpOverflowShift fmt :=
    (significand_mul_two_pow_le (k := 16) (l := fpOverflowShift fmt - 1) hn (by cases fmt <;> decide)).trans_lt
      (Nat.pow_lt_pow_right (by decide) (by cases fmt <;> decide))
  rw [toFp, fpOfBits_fpToBits_fpRound, fpRound, fpOne, hexact, if_pos hrange]

end Sys2Proof.Machine
end

