-- ==== Sys2Proof/Proofs/Invariant.lean ====
section
/-! The invariant of the block (10_state.md R33 to R42, 20_memory.md R58, R61, 60_exceptions.md R125): it holds after a reset, and
every step keeps it. What a command writes keeps the registers legal, case by case of `RegsAfter`; what it does on the bus is
said once by `exec_cases`. -/

namespace Sys2Proof.Machine

/-! ### The error record -/

/-- On a record whose bit 0 is clear, the write of a reported code only sets the code's bit (R42). -/
theorem setSticky_eq_or {x : BitVec 9} {c : BitVec 4} (hx : x.getLsbD 0 = false) (hc : 1 ≤ c.toNat) :
    setSticky x c = x ||| (1#9 <<< c.toNat) := by
  have hmask : ∀ i : Fin 9, (0x1FE#9).getLsbD i.val = decide (i.val ≠ 0) := by decide
  refine BitVec.eq_of_getLsbD_eq fun i hi => ?_
  rw [setSticky, BitVec.getLsbD_and, hmask ⟨i, hi⟩]
  rcases Nat.eq_zero_or_pos i with rfl | hpos
  · simpa using ⟨by simpa using hx, hc⟩
  · simp [Nat.ne_of_gt hpos]

/-- A reported error has its bit set in the record (R42). -/
theorem setSticky_bit_code (x : BitVec 9) (e : CommandError) : (setSticky x e.code).getLsbD e.code.toNat = true := by
  cases e <;> simp [setSticky, CommandError.code]

/-! ### Legal modes -/

/-- The mode of a reset is not the power-down code, which is at most 6 (R16, R17). -/
theorem resetMode_ne_powerDownCode (p : Params) : Config.resetMode ≠ p.powerDownCode :=
  (by decide : ∀ i : Fin 7, 7#3 ≠ BitVec.ofNat 3 i.val) p.powerDownIndex

/-- R35: `SAVED_MODE` does not take up the power-down code. -/
theorem savedModeAfter_ne_powerDownCode {p : Params} {saved : BitVec 3} (m : BitVec 3) (h : saved ≠ p.powerDownCode) :
    savedModeAfter p saved m ≠ p.powerDownCode := by
  unfold savedModeAfter
  split
  · exact h
  · assumption

/-- R100: a mode code that is not power-down is saved together with its write. -/
theorem eq_savedModeAfter_or_powerDownCode (p : Params) (saved m : BitVec 3) :
    m = savedModeAfter p saved m ∨ m = p.powerDownCode := by
  unfold savedModeAfter
  split
  · exact .inr ‹_›
  · exact .inl rfl

/-! ### Coherent results -/

/-- The result registers that CALIBRATE computes hang together (R36, R102). -/
theorem calResult_coherent (fmt : FpFormat) (range : BitVec 1) (gain : BitVec 2) (i : RealBits) :
    (calResult fmt range gain i).Coherent fmt := ⟨rfl, rfl, rfl, rfl⟩

/-- The snapshot that MEASURE commits hangs together (R37, R107). -/
theorem snapshotOf_coherent (fmt : FpFormat) (c : CalResult) (ws wb wc wp : Word) :
    (snapshotOf fmt c ws wb wc wp).Coherent fmt where
  busValue_eq := by
    have hlt := wb.isLt
    simp only [snapshotOf, busDecode, busValue, BitVec.extractLsb'_toNat, Nat.shiftRight_eq_div_pow]
    omega
  ovf_eq := rfl
  cnvr_eq := rfl
  shuntV_eq := rfl
  busV_eq := rfl

/-! ### Legal registers -/

theorem Regs.reset_legal (p : Params) : Regs.reset.Legal p where
  savedMode_ne := resetMode_ne_powerDownCode p
  mode_eq := .inl rfl
  badc_legal := by decide
  sadc_legal := by decide
  status_le := by decide
  sticky_zero := by decide
  status_sticky h := absurd rfl h
  calValue_zero _ := rfl
  cal_coherent _ h := nomatch h
  snap_coherent _ h := nomatch h

namespace Regs.Legal

variable {p : Params} {r : Regs}

/-- A write of legal configuration fields and of the mode saved with them. -/
theorem withConfig (h : r.Legal p) {f : ConfigFields} {saved : BitVec 3} (hsaved : saved ≠ p.powerDownCode)
    (hmode : f.mode = saved ∨ f.mode = p.powerDownCode) (hbadc : adcLegal f.badc = true)
    (hsadc : adcLegal f.sadc = true) : { r with cfg := f, savedMode := saved : Regs }.Legal p :=
  { h with savedMode_ne := hsaved, mode_eq := hmode, badc_legal := hbadc, sadc_legal := hsadc }

/-- A write of `CFG.MODE` alone, together with the mode saved. -/
theorem withMode (h : r.Legal p) {m saved : BitVec 3} (hsaved : saved ≠ p.powerDownCode)
    (hmode : m = saved ∨ m = p.powerDownCode) :
    { r with cfg := { r.cfg with mode := m }, savedMode := saved : Regs }.Legal p :=
  h.withConfig hsaved hmode h.badc_legal h.sadc_legal

/-- INIT leaves the registers of a reset and the error record of before (R94). -/
theorem init (h : r.Legal p) : (initRegs r).Legal p :=
  { Regs.reset_legal p with
    badc_legal := (by decide : adcLegal (unpack Config.defaultConfig).badc = true)
    sadc_legal := (by decide : adcLegal (unpack Config.defaultConfig).sadc = true)
    status_le := h.status_le
    sticky_zero := h.sticky_zero
    status_sticky := h.status_sticky }

/-- A calibration written as CALIBRATE computes it (R102). -/
theorem withCalibration (h : r.Legal p) {c : CalResult} (hc : c.Coherent p.fpFormat)
    (hq : calInRange (calQuotient p.fpFormat c.currentLsb) = true) :
    { r with cal := some c, calValue := calValueOf (calQuotient p.fpFormat c.currentLsb) : Regs }.Legal p :=
  { h with
    calValue_zero := nofun
    cal_coherent := by rintro _ ⟨⟩; exact ⟨hc, hq, rfl⟩
    snap_coherent := fun n hn => ⟨rfl, (h.snap_coherent n hn).2⟩ }

/-- A coherent snapshot written under a calibration (R107). -/
theorem withSnapshot (h : r.Legal p) {n : Snapshot} (hcal : r.calValid = true) (hn : n.Coherent p.fpFormat) :
    { r with snap := some n : Regs }.Legal p :=
  { h with snap_coherent := by rintro _ ⟨⟩; exact ⟨hcal, hn⟩ }

theorem withReadData (h : r.Legal p) (w : Word) : { r with rdata := some w : Regs }.Legal p := { h with }

/-- The error record of a command that succeeded (R110). -/
theorem completedOk (h : r.Legal p) : { r with status := 0#4 : Regs }.Legal p :=
  { h with status_le := Nat.zero_le 8, status_sticky := fun hne => absurd rfl hne }

/-- The error record of a command that took an error (R110). -/
theorem completedWithError (h : r.Legal p) (e : CommandError) :
    { r with status := e.code, errSticky := setSticky r.errSticky e.code : Regs }.Legal p :=
  { h with
    status_le := e.code_range.2
    sticky_zero := setSticky_bit_zero _ _
    status_sticky := fun _ => setSticky_bit_code _ e }

/-- Whatever registers a command may have reached before its end, they are legal. -/
theorem regsAfter (h : r.Legal p) {i : Instr} {q : Regs} (hq : RegsAfter p r i q) : q.Legal p := by
  cases i with
  | init => exact hq ▸ h.init
  | readReg a =>
    rcases hq with rfl | ⟨w, rfl⟩
    · exact h
    · exact h.withReadData w
  | writeReg a v => exact hq ▸ h
  | applyConfig f =>
    obtain ⟨hbadc, hsadc, rfl⟩ := hq
    exact h.withConfig (savedModeAfter_ne_powerDownCode _ h.savedMode_ne) (eq_savedModeAfter_or_powerDownCode _ _ _)
      hbadc hsadc
  | resetDevice =>
    rcases hq with rfl | rfl
    · exact h
    · exact h.withMode (resetMode_ne_powerDownCode p) (.inl rfl)
  | setMode m =>
    exact hq ▸ h.withMode (savedModeAfter_ne_powerDownCode m h.savedMode_ne) (eq_savedModeAfter_or_powerDownCode _ _ _)
  | standby => exact hq ▸ h.withMode h.savedMode_ne (.inr rfl)
  | resume => exact hq ▸ h.withMode h.savedMode_ne (.inl rfl)
  | calibrate cr =>
    obtain ⟨hrange, rfl⟩ := hq
    exact h.withCalibration (calResult_coherent _ _ _ _) hrange
  | measure =>
    rcases hq with rfl | ⟨c, ws, wb, wc, wp, hcal, rfl⟩
    · exact h
    · exact h.withSnapshot (by simp [Regs.calValid, hcal]) (snapshotOf_coherent _ _ _ _ _ _)

end Regs.Legal

/-! ### Commands -/

/-- What the invariant gives of the state in which a command starts: the automatic INIT is no longer pending, and every earlier
transaction has been answered. -/
structure State.ReadyToRun (s : State) : Prop where
  regs_legal : s.regs.Legal s.params
  ports_legal : s.ports.Legal s.params
  autoInit_over : s.autoInit = false
  trace_allowed : ∀ e ∈ s.trace, e.allowed s.params.devAddr = true
  trace_answered : ∀ e ∈ s.trace, e.pending = false

theorem State.ReadyToRun.completeOk {s : State} (h : s.ReadyToRun) : (completeOk s).Inv where
  regs_legal := h.regs_legal.completedOk
  ports_legal := h.regs_legal.completedOk
  ports_current _ := rfl
  autoInit_fresh ha := by simp [h.autoInit_over] at ha
  done_idle _ := rfl
  trace_allowed := h.trace_allowed
  trace_answered _ := h.trace_answered

theorem State.ReadyToRun.beginCommand {s : State} (h : s.ReadyToRun) : (beginCommand s).ReadyToRun := { h with }

theorem State.ReadyToRun.completeWithError {s : State} (h : s.ReadyToRun) (e : CommandError) :
    (completeWithError e s).Inv where
  regs_legal := h.regs_legal.completedWithError e
  ports_legal := h.regs_legal.completedWithError e
  ports_current _ := rfl
  autoInit_fresh ha := by simp [h.autoInit_over] at ha
  done_idle _ := rfl
  trace_allowed := h.trace_allowed
  trace_answered _ := h.trace_answered

/-- A command leaves the invariant true, whether it completes, takes an error or is stuck. -/
theorem exec_inv {i : Instr} {s t : State} (hs : s.ReadyToRun) (h : exec i s = .next t) : t.Inv := by
  rcases exec_cases h with ⟨e, -, rfl⟩ | ⟨q, events, ws, rs, n, hq, hallowed, hend⟩
  · exact hs.completeWithError e
  have hregs : q.Legal s.params := hs.regs_legal.regsAfter hq
  have htrace : ∀ e ∈ s.trace ++ events, e.allowed s.params.devAddr = true :=
    List.forall_mem_append.mpr ⟨hs.trace_allowed, hallowed⟩
  have hanswered (hev : ∀ e ∈ events, e.pending = false) : State.ReadyToRun
      { s with regs := q, trace := s.trace ++ events, writeAnswers := ws, readAnswers := rs, freeDraws := n } :=
    { hs with
      regs_legal := hregs
      trace_allowed := htrace
      trace_answered := List.forall_mem_append.mpr ⟨hs.trace_answered, hev⟩ }
  rcases hend with ⟨rfl, hok⟩ | ⟨before, last, rfl, hok, ⟨hfail, rfl⟩ | ⟨-, rfl⟩⟩
  · exact (hanswered fun e he => BusEvent.not_pending_of_succeeded (hok e he)).completeOk
  · refine (hanswered (List.forall_mem_append.mpr ⟨?_, ?_⟩)).completeWithError _
    · exact fun e he => BusEvent.not_pending_of_succeeded (hok e he)
    · exact List.forall_mem_singleton.mpr (BusEvent.not_pending_of_failed hfail)
  · exact
      { regs_legal := hregs
        ports_legal := hs.ports_legal
        ports_current := nofun
        autoInit_fresh := by simp [hs.autoInit_over]
        done_idle := nofun
        trace_allowed := htrace
        trace_answered := nofun }

/-! ### Steps -/

theorem hardwareReset_inv (s : State) : (hardwareReset s).Inv where
  regs_legal := Regs.reset_legal _
  ports_legal := Regs.reset_legal _
  ports_current := nofun
  autoInit_fresh _ := ⟨rfl, rfl⟩
  done_idle := nofun
  trace_allowed := nofun
  trace_answered _ := nofun

namespace State.Inv

variable {s : State}

theorem waitForCommand (h : s.Inv) : (waitForCommand s).Inv := { h with done_idle := nofun }

/-- The automatic INIT starts on an empty trace (R134). -/
theorem readyToRun_startAutoInit (h : s.Inv) (ha : s.autoInit = true) : (startAutoInit s).ReadyToRun where
  regs_legal := h.regs_legal
  ports_legal := h.ports_legal
  autoInit_over := rfl
  trace_allowed := h.trace_allowed
  trace_answered := by simp [(h.autoInit_fresh ha).2]

/-- An idle block has no automatic INIT pending and no unanswered transaction. -/
theorem readyToRun_acceptCommand (h : s.Inv) (hidle : s.busy = false) (o : PortWords) (rest : List PortWords) :
    (acceptCommand o rest s).ReadyToRun where
  regs_legal := h.regs_legal
  ports_legal := h.ports_legal
  autoInit_over := Bool.eq_false_iff.mpr fun ha => Bool.eq_false_iff.mp hidle (h.autoInit_fresh ha).1
  trace_allowed := h.trace_allowed
  trace_answered := h.trace_answered hidle

end State.Inv

/-- Settles O43: by the ways a step can end; a reset gives the reset state, waiting changes nothing the invariant speaks of, and
a command keeps the invariant from the states in which it can start. -/
theorem everyStepKeepsTheInvariant : Obligations.EveryStepKeepsTheInvariant := by
  intro s t hs h
  rcases step_cases h with ⟨-, rfl⟩ | ⟨-, -, hauto, hinit⟩ | ⟨-, -, -, rfl⟩ | ⟨o, rest, -, hidle, -, hrun⟩
  · exact hardwareReset_inv s
  · exact exec_inv (hs.readyToRun_startAutoInit hauto) hinit
  · exact hs.waitForCommand
  · have hready := hs.readyToRun_acceptCommand hidle o rest
    rcases runLatched_cases hrun with ⟨i, hexec⟩ | rfl
    · exact exec_inv hready hexec
    · exact hready.beginCommand.completeWithError _

/-- Settles O42: the state at reset is the one a hardware reset of it gives. -/
theorem invariantHoldsAtReset : Obligations.InvariantHoldsAtReset := hardwareReset_inv State.reset

end Sys2Proof.Machine
end

