-- ==== Sys2Proof/Proofs/RegisterWrites.lean ====
section
/-! What a command writes of the registers (10_state.md R33 to R42): the register files its rule lists, and one bit of the error
record. -/

namespace Sys2Proof.Machine

/-! ### The register files -/

/-- q has the register files of r that command i is not listed as a writer of. -/
def KeepsUnlistedFiles (i : Instr) (r q : Regs) : Prop :=
  (writesCfg i = false → q.cfg = r.cfg) ∧
  (writesSavedMode i = false → q.savedMode = r.savedMode) ∧
  (writesCalibration i = false → q.cal = r.cal ∧ q.calValue = r.calValue) ∧
  (writesSnapshot i = false → q.snap = r.snap) ∧
  (writesReadData i = false → q.rdata = r.rdata)

theorem KeepsUnlistedFiles.refl (i : Instr) (r : Regs) : KeepsUnlistedFiles i r r :=
  ⟨fun _ => rfl, fun _ => rfl, fun _ => ⟨rfl, rfl⟩, fun _ => rfl, fun _ => rfl⟩

theorem RegsAfter.keepsUnlistedFiles {p : Params} {r q : Regs} {i : Instr} (h : RegsAfter p r i q) :
    KeepsUnlistedFiles i r q := by
  cases i with
  | init => exact ⟨nofun, nofun, nofun, nofun, nofun⟩
  | readReg a =>
    rcases h with rfl | ⟨w, rfl⟩
    · exact .refl _ _
    · exact ⟨fun _ => rfl, fun _ => rfl, fun _ => ⟨rfl, rfl⟩, fun _ => rfl, nofun⟩
  | writeReg a v => exact h ▸ .refl _ _
  | applyConfig f =>
    obtain ⟨-, -, rfl⟩ := h
    exact ⟨nofun, nofun, fun _ => ⟨rfl, rfl⟩, fun _ => rfl, fun _ => rfl⟩
  | resetDevice =>
    rcases h with rfl | rfl
    · exact .refl _ _
    · exact ⟨nofun, nofun, fun _ => ⟨rfl, rfl⟩, fun _ => rfl, fun _ => rfl⟩
  | setMode m => exact h ▸ ⟨nofun, nofun, fun _ => ⟨rfl, rfl⟩, fun _ => rfl, fun _ => rfl⟩
  | standby => exact h ▸ ⟨nofun, fun _ => rfl, fun _ => ⟨rfl, rfl⟩, fun _ => rfl, fun _ => rfl⟩
  | resume => exact h ▸ ⟨nofun, fun _ => rfl, fun _ => ⟨rfl, rfl⟩, fun _ => rfl, fun _ => rfl⟩
  | calibrate cr =>
    obtain ⟨-, rfl⟩ := h
    exact ⟨fun _ => rfl, fun _ => rfl, nofun, fun _ => rfl, fun _ => rfl⟩
  | measure =>
    rcases h with rfl | ⟨c, ws, wb, wc, wp, -, rfl⟩
    · exact .refl _ _
    · exact ⟨fun _ => rfl, fun _ => rfl, fun _ => ⟨rfl, rfl⟩, nofun, fun _ => rfl⟩

/-- Settles O47: an ending writes `STATUS` and `ERR_STICKY` only, so the files are those the body left. -/
theorem registerFilesHaveTheListedWriters : Obligations.RegisterFilesHaveTheListedWriters := by
  intro i s t h
  rcases exec_cases h with ⟨e, -, rfl⟩ | ⟨q, events, ws, rs, n, hq, -, hend⟩
  · exact KeepsUnlistedFiles.refl i s.regs
  · rcases hend with ⟨rfl, -⟩ | ⟨before, last, -, -, ⟨-, rfl⟩ | ⟨-, rfl⟩⟩ <;> exact hq.keepsUnlistedFiles

/-! ### The error record -/

/-- No body writes `ERR_STICKY`: only the end of the frame does (R110). -/
theorem RegsAfter.errSticky_eq {p : Params} {r q : Regs} {i : Instr} (h : RegsAfter p r i q) :
    q.errSticky = r.errSticky := by
  cases i with
  | init => exact h ▸ rfl
  | readReg a => rcases h with rfl | ⟨w, rfl⟩ <;> rfl
  | writeReg a v => exact h ▸ rfl
  | applyConfig f =>
    obtain ⟨-, -, rfl⟩ := h
    rfl
  | resetDevice => rcases h with rfl | rfl <;> rfl
  | setMode m => exact h ▸ rfl
  | standby => exact h ▸ rfl
  | resume => exact h ▸ rfl
  | calibrate cr =>
    obtain ⟨-, rfl⟩ := h
    rfl
  | measure => rcases h with rfl | ⟨c, ws, wb, wc, wp, -, rfl⟩ <;> rfl

/-- From sticky record x, t has set the bit of the code it reports, or reports none and left the record alone. -/
def State.StickyFollows (x : BitVec 9) (t : State) : Prop :=
  (t.regs.errSticky = x ∧ (t.done = true → t.regs.status = 0#4)) ∨
  (t.done = true ∧ 1 ≤ t.regs.status.toNat ∧ t.regs.status.toNat ≤ 8 ∧
    t.regs.errSticky = x ||| (1#9 <<< t.regs.status.toNat))

theorem completeWithError_stickyFollows {s : State} (hs : s.regs.errSticky.getLsbD 0 = false) (e : CommandError) :
    (completeWithError e s).StickyFollows s.regs.errSticky :=
  .inr ⟨rfl, e.code_range.1, e.code_range.2, setSticky_eq_or hs e.code_range.1⟩

theorem exec_stickyFollows {i : Instr} {s t : State} (hs : s.regs.errSticky.getLsbD 0 = false)
    (h : exec i s = .next t) : t.StickyFollows s.regs.errSticky := by
  rcases exec_cases h with ⟨e, -, rfl⟩ | ⟨q, events, ws, rs, n, hq, -, hend⟩
  · exact completeWithError_stickyFollows hs e
  · rw [← hq.errSticky_eq] at hs ⊢
    rcases hend with ⟨rfl, -⟩ | ⟨before, last, -, -, ⟨-, rfl⟩ | ⟨-, rfl⟩⟩
    · exact .inl ⟨rfl, fun _ => rfl⟩
    · exact completeWithError_stickyFollows hs _
    · exact .inl ⟨rfl, nofun⟩

/-- Settles O46: bit 0 is 0 in the state the invariant gives after the step; the rest is by the ways a step can end. -/
theorem stickyRecordOnlyGrows : Obligations.StickyRecordOnlyGrows := by
  intro s t hs h
  have hzero : s.regs.errSticky.getLsbD 0 = false := hs.regs_legal.sticky_zero
  refine ⟨(everyStepKeepsTheInvariant s t hs h).regs_legal.sticky_zero, ?_⟩
  rcases step_cases h with ⟨hrst, rfl⟩ | ⟨hrst, -, -, hinit⟩ | ⟨hrst, -, -, rfl⟩ | ⟨o, rest, hrst, -, -, hrun⟩
  · exact ⟨fun _ => rfl, by simp [hrst]⟩
  · exact ⟨by simp [hrst], fun _ => exec_stickyFollows (s := startAutoInit s) hzero hinit⟩
  · exact ⟨by simp [hrst], fun _ => .inl ⟨rfl, nofun⟩⟩
  · refine ⟨by simp [hrst], fun _ => ?_⟩
    rcases runLatched_cases hrun with ⟨i, hexec⟩ | rfl
    · exact exec_stickyFollows (s := acceptCommand o rest s) hzero hexec
    · exact completeWithError_stickyFollows (s := beginCommand (acceptCommand o rest s)) hzero _

end Sys2Proof.Machine
end

