-- ==== Sys2Proof/Proofs/OutputPorts.lean ====
section
/-! What the output ports show (30_encoding.md R68), and the reads that are refused (10_state.md R28). -/

namespace Sys2Proof.Machine

/-- Settles O54: by the definition of each port, and by what a read and a port give while the register holds a value. -/
theorem outputPortsShowTheirRegisters : Obligations.OutputPortsShowTheirRegisters := by
  refine ⟨by decide, fun s => ⟨rfl, rfl, rfl, rfl, rfl, rfl, rfl, rfl, ?_, ?_, ?_, Regs.readRdata_eq_none_iff.mpr,
    fun h reg => (Regs.readCalResult_eq_none_iff reg).mpr h, fun h _ reg => (Regs.readSnapshot_eq_none_iff reg).mpr h⟩⟩
  · intro h
    obtain ⟨w, hw⟩ := Option.isSome_iff_exists.mp h
    exact ⟨w, hw, Regs.readRdata_of_some hw, State.rdataPort_of_some hw⟩
  · intro h
    obtain ⟨c, hc⟩ := Option.isSome_iff_exists.mp h
    exact ⟨c, hc, fun reg => ⟨Regs.readCalResult_of_some hc reg, State.calResultPort_of_some hc reg⟩⟩
  · intro h
    obtain ⟨n, hn⟩ := Option.isSome_iff_exists.mp h
    exact ⟨n, hn, fun _ reg => ⟨Regs.readSnapshot_of_some hn reg, State.snapshotPort_of_some hn reg⟩⟩

end Sys2Proof.Machine
end

