-- ==== Sys2Proof/Proofs/Noninterference.lean ====
section
/-! No command depends on the snapshot, `STATUS` or `ERR_STICKY` (10_state.md R38, 60_exceptions.md R113). A computation ignores
these records when it gives the same run, records apart, from a state and from that state without them; the bus primitives do,
sequencing keeps it, and so every command body does. -/

namespace Sys2Proof.Machine

/-- The run with the records taken out of the state it reached. -/
def Run.withoutRecords {α : Type} : Run α → Run α
  | .returned a s => .returned a s.withoutRecords
  | .raised e s => .raised e s.withoutRecords
  | .hung s => .hung s.withoutRecords

/-- Two runs that are the same, records apart, ended in the same way. -/
theorem Run.withoutRecords_eq_cases {α : Type} {r r' : Run α} (h : r.withoutRecords = r'.withoutRecords) :
    (∃ a s s', r = .returned a s ∧ r' = .returned a s' ∧ s.withoutRecords = s'.withoutRecords) ∨
    (∃ e s s', r = .raised e s ∧ r' = .raised e s' ∧ s.withoutRecords = s'.withoutRecords) ∨
    (∃ s s', r = .hung s ∧ r' = .hung s' ∧ s.withoutRecords = s'.withoutRecords) := by
  cases r with
  | returned a s =>
    cases r' with
    | returned a' s' =>
      injection h with ha hs
      exact .inl ⟨a, s, s', rfl, by rw [ha], hs⟩
    | raised | hung => cases h
  | raised e s =>
    cases r' with
    | raised e' s' =>
      injection h with he hs
      exact .inr (.inl ⟨e, s, s', rfl, by rw [he], hs⟩)
    | returned | hung => cases h
  | hung s =>
    cases r' with
    | hung s' =>
      injection h with hs
      exact .inr (.inr ⟨s, s', rfl, rfl, hs⟩)
    | returned | raised => cases h

/-- MEASURE without a calibration (R118). -/
theorem bodyMeasure_of_none {s : State} (h : s.regs.cal = none) :
    bodyMeasure s = .raised (.staleCalibration .measure) s := by
  simp only [bodyMeasure, h]

/-- The computation gives the same run, records apart, whatever the records are. -/
def IgnoresRecords {α : Type} (k : State → Run α) : Prop :=
  ∀ s, (k s).withoutRecords = (k s.withoutRecords).withoutRecords

namespace IgnoresRecords

/-- Two states that differ in the records only give the same run, records apart. -/
theorem run_eq {α : Type} {k : State → Run α} (hk : IgnoresRecords k) {s s' : State}
    (h : s.withoutRecords = s'.withoutRecords) : (k s).withoutRecords = (k s').withoutRecords := by
  rw [hk s, hk s', h]

theorem andThen {α β : Type} {k : State → Run α} {l : α → State → Run β} (hk : IgnoresRecords k)
    (hl : ∀ a, IgnoresRecords (l a)) : IgnoresRecords fun s => (k s).andThen l := by
  intro s
  dsimp only
  rcases Run.withoutRecords_eq_cases (hk s) with
    ⟨a, t, t', hr, hr', ht⟩ | ⟨e, t, t', hr, hr', ht⟩ | ⟨t, t', hr, hr', ht⟩ <;> rw [hr, hr']
  · exact (hl a).run_eq ht
  · exact congrArg (Run.raised e) ht
  · exact congrArg Run.hung ht

theorem busBegin : IgnoresRecords busBegin := fun _ => rfl

theorem busWrite (bytes : List Byte) : IgnoresRecords (busWrite bytes) := by
  intro s
  simp only [Machine.busWrite, State.nextWriteOutcome, State.dropWriteOutcome, State.withoutRecords]
  cases s.writeAnswers <;> simp only <;> split <;> rfl

theorem busRead : IgnoresRecords busRead := by
  intro s
  simp only [Machine.busRead, State.nextReadOutcome, State.dropReadOutcome, State.withoutRecords]
  cases s.readAnswers <;> simp only <;> split <;> rfl

theorem memWrite (a : Byte) (v : Word) : IgnoresRecords (memWrite a v) := busWrite _

theorem memRead (a : Byte) : IgnoresRecords (memRead a) := (busWrite [a]).andThen fun _ => busRead

/-- A computation that first reads something that is none of the records. -/
theorem reading {α β : Type} (g : State → β) {k : β → State → Run α} (hg : ∀ s, g s.withoutRecords = g s)
    (hk : ∀ b, IgnoresRecords (k b)) : IgnoresRecords fun s => k (g s) s := by
  intro s
  dsimp only
  rw [hg s]
  exact hk (g s) s

/-- A computation after a state change whose effect is the same, records apart. -/
theorem afterWrite {α : Type} {k : State → Run α} (hk : IgnoresRecords k) {f : State → State}
    (hf : ∀ s, (f s).withoutRecords = (f s.withoutRecords).withoutRecords) : IgnoresRecords fun s => k (f s) :=
  fun s => hk.run_eq (hf s)

theorem raised {α : Type} (e : CommandError) : IgnoresRecords (Run.raised e : State → Run α) := fun _ => rfl

theorem writeConfig : IgnoresRecords writeConfig :=
  reading (fun s => pack s.regs.cfg) (fun _ => rfl) (memWrite 0x00#8)

/-! ### The command bodies -/

theorem bodyInit : IgnoresRecords bodyInit :=
  (busBegin.afterWrite fun _ => rfl).andThen fun _ =>
  (memWrite _ _).andThen fun _ => memWrite _ _

theorem bodyReadReg (a : Byte) : IgnoresRecords (bodyReadReg a) := by
  unfold Machine.bodyReadReg
  cases regDecode a with
  | none => exact raised _
  | some x =>
    refine reading (fun s => s.regs.calValid) (k := fun valid s =>
      if x.1.needsCalibration && !valid then .raised (.staleCalibration (.register a)) s
      else (Machine.memRead a s).andThen fun w t => .returned () (t.setRegs { t.regs with rdata := some w }))
      (fun _ => rfl) fun valid => ?_
    split
    · exact raised _
    · exact (memRead a).andThen fun _ _ => rfl

theorem bodyWriteReg (a : Byte) (v : Word) : IgnoresRecords (bodyWriteReg a v) := by
  unfold Machine.bodyWriteReg
  split
  · exact raised _
  · exact raised _
  · exact memWrite a v

theorem bodyApplyConfig (f : ConfigFields) : IgnoresRecords (bodyApplyConfig f) := by
  unfold Machine.bodyApplyConfig
  split
  · exact raised _
  · split
    · exact raised _
    · exact writeConfig.afterWrite fun _ => rfl

theorem bodyResetDevice : IgnoresRecords bodyResetDevice := (memWrite _ _).andThen fun _ _ => rfl

theorem bodySetMode (m : BitVec 3) : IgnoresRecords (bodySetMode m) := writeConfig.afterWrite fun _ => rfl

theorem bodyStandby : IgnoresRecords bodyStandby := writeConfig.afterWrite fun _ => rfl

theorem bodyResume : IgnoresRecords bodyResume := writeConfig.afterWrite fun _ => rfl

theorem bodyCalibrate (cr : RealBits) : IgnoresRecords (bodyCalibrate cr) := by
  unfold Machine.bodyCalibrate
  refine reading (fun s => (s.params.fpFormat, s.regs.cfg)) (k := fun x s =>
    let i := flBits x.1 cr
    if !isFinite i || !isPositive i then .raised (.invalidCurrentInput i) s
    else
      let res := calResult x.1 x.2.range x.2.gain i
      let q := calQuotient x.1 res.currentLsb
      if !calInRange q then .raised (.calibrationRange q) s
      else Machine.memWrite 0x05#8 (calValueOf q) (s.setRegs { s.regs with cal := some res, calValue := calValueOf q }))
    (fun _ => rfl) fun x => ?_
  dsimp only
  split
  · exact raised _
  · split
    · exact raised _
    · exact (memWrite _ _).afterWrite fun _ => rfl

theorem measureReads : IgnoresRecords measureReads :=
  (memRead _).andThen fun _ =>
  (memRead _).andThen fun _ =>
  (reading (fun s => s.regs.calValue) (fun _ => rfl) (memWrite 0x05#8)).andThen fun _ =>
  (memRead _).andThen fun _ =>
  (memRead _).andThen fun _ _ => rfl

/-- MEASURE checks and reads none of the records; the snapshot it commits is itself one of them. -/
theorem bodyMeasure : IgnoresRecords bodyMeasure := by
  intro s
  cases hc : s.regs.cal with
  | none =>
    rw [bodyMeasure_of_none hc, bodyMeasure_of_none (s := s.withoutRecords) hc]
    exact raised _ s
  | some c =>
    rw [bodyMeasure_eq hc, bodyMeasure_eq (s := s.withoutRecords) hc]
    exact (measureReads.andThen fun _ _ => rfl) s

end IgnoresRecords

theorem bodyOf_ignoresRecords (i : Instr) : IgnoresRecords (bodyOf i) := by
  cases i with
  | init => exact .bodyInit
  | readReg a => exact .bodyReadReg a
  | writeReg a v => exact .bodyWriteReg a v
  | applyConfig f => exact .bodyApplyConfig f
  | resetDevice => exact .bodyResetDevice
  | setMode m => exact .bodySetMode m
  | standby => exact .bodyStandby
  | resume => exact .bodyResume
  | calibrate cr => exact .bodyCalibrate cr
  | measure => exact .bodyMeasure

/-! ### The end of the frame -/

theorem completeOk_withoutRecords {s s' : State} (h : s.withoutRecords = s'.withoutRecords) :
    (completeOk s).withoutRecords = (completeOk s').withoutRecords := by
  change (completeOk s.withoutRecords).withoutRecords = (completeOk s'.withoutRecords).withoutRecords
  rw [h]

theorem completeWithError_withoutRecords (e : CommandError) {s s' : State} (h : s.withoutRecords = s'.withoutRecords) :
    (completeWithError e s).withoutRecords = (completeWithError e s').withoutRecords := by
  change (completeWithError e s.withoutRecords).withoutRecords = (completeWithError e s'.withoutRecords).withoutRecords
  rw [h]

/-- A body that hangs has left BUSY at 1. -/
theorem bodyOf_hung_busy {i : Instr} {s u : State} (h : bodyOf i (beginCommand s) = .hung u) : u.busy = true := by
  rcases bodyOf_cases i (beginCommand s) with ⟨e, -, hb⟩ | ⟨q, events, ws, rs, n, -, hst, -, -⟩
  · rw [hb] at h
    cases h
  · rw [h, Run.state_hung] at hst
    rw [hst, beginCommand_busy]

/-- Settles O50: the bodies run alike, records apart, so both commands end alike, and the end of the frame writes the code of that
ending. -/
theorem noCommandReadsFlagsOrErrorRecord : Obligations.NoCommandReadsFlagsOrErrorRecord := by
  intro i s s' t t' hs h h'
  have hbegin : (beginCommand s).withoutRecords = (beginCommand s').withoutRecords := congrArg beginCommand hs
  rw [exec_next_iff.mp h, exec_next_iff.mp h']
  rcases Run.withoutRecords_eq_cases ((bodyOf_ignoresRecords i).run_eq hbegin) with
    ⟨a, u, u', hr, hr', hu⟩ | ⟨e, u, u', hr, hr', hu⟩ | ⟨u, u', hr, hr', hu⟩ <;> rw [hr, hr']
  · exact ⟨completeOk_withoutRecords hu, fun _ => rfl⟩
  · exact ⟨completeWithError_withoutRecords e hu, fun _ => rfl⟩
  · exact ⟨hu, by simp [bodyOf_hung_busy hr]⟩

end Sys2Proof.Machine
end

