-- ==== Sys2Proof/Proofs/BusProtocol.lean ====
section
/-! The transactions of a register read and a register write (20_memory.md R53 to R55), and the only ones a command issues (R58,
R61). -/

namespace Sys2Proof.Machine

/-! ### The bytes of a word -/

theorem wordOfBytes_toNat (b0 b1 : Byte) : (wordOfBytes b0 b1).toNat = b0.toNat * 256 + b1.toNat := by
  rw [wordOfBytes, BitVec.toNat_append, ← Nat.shiftLeft_add_eq_or_of_lt b1.isLt, Nat.shiftLeft_eq]

theorem highByte_toNat (v : Word) : (highByte v).toNat = v.toNat / 256 := by
  have hv := v.isLt
  rw [highByte, BitVec.extractLsb'_toNat, Nat.shiftRight_eq_div_pow]
  omega

theorem lowByte_toNat (v : Word) : (lowByte v).toNat = v.toNat % 256 := by
  rw [lowByte, BitVec.extractLsb'_toNat, Nat.shiftRight_zero]

/-! ### A register read whose outcomes are queued -/

theorem memRead_of_pointer_err (a : Byte) {s : State} {ws : List WriteOutcome} (hw : s.writeAnswers = .err :: ws) :
    memRead a s = .raised .transportError { s with trace := s.trace ++ [s.pointerEvent a .err], writeAnswers := ws } := by
  rw [memRead, busWrite_of_queued [a] hw]
  rfl

theorem memRead_of_pointer_noAnswer (a : Byte) {s : State} {ws : List WriteOutcome}
    (hw : s.writeAnswers = .noAnswer :: ws) :
    memRead a s = .hung { s with trace := s.trace ++ [s.pointerEvent a .noAnswer], writeAnswers := ws } := by
  rw [memRead, busWrite_of_queued [a] hw]
  rfl

/-- After an acknowledged pointer write, a register read is its 2-byte read. -/
theorem memRead_of_pointer_ack (a : Byte) {s : State} {ws : List WriteOutcome} (hw : s.writeAnswers = .ack :: ws) :
    memRead a s = busRead { s with trace := s.trace ++ [s.pointerEvent a .ack], writeAnswers := ws } := by
  rw [memRead, busWrite_of_queued [a] hw]
  rfl

/-- Settles O11: by the outcome of the pointer write, and after an acknowledged one by the outcome of the 2-byte read. -/
theorem registerReadProtocol : Obligations.RegisterReadProtocol := by
  refine ⟨wordOfBytes_toNat, fun a s ws => ⟨memRead_of_pointer_err a, memRead_of_pointer_noAnswer a, ?acknowledged⟩⟩
  intro r rs hw hr
  rw [memRead_of_pointer_ack a hw]
  refine (busRead_of_queued
    (s := { s with trace := s.trace ++ [s.pointerEvent a .ack], writeAnswers := ws }) hr).trans ?_
  cases r <;> simp [State.readEvent]

/-- Settles O12: a register write is one bus write, which ends as its outcome says. -/
theorem registerWriteProtocol : Obligations.RegisterWriteProtocol := by
  intro a v s o ws hw
  refine ⟨highByte_toNat v, lowByte_toNat v, ?_⟩
  rw [memWrite, busWrite_of_queued _ hw]
  cases o <;> rfl

/-! ### The transactions of a command -/

/-- The events `BusEvent.allowed` accepts, by kind and length. -/
theorem BusEvent.allowed_cases {d : DeviceAddress} {e : BusEvent} (h : e.allowed d = true) :
    e = .begin ∨
    (∃ a o, e = .wr d [a] o ∧ a.toNat ≤ 0x05) ∨
    (∃ a h l o, e = .wr d [a, h, l] o ∧ (a = 0x00#8 ∨ a = 0x05#8)) ∨
    (∃ o, e = .rd d o) := by
  unfold BusEvent.allowed at h
  split at h
  case h_1 => exact .inl rfl
  case h_2 d' a o =>
    obtain ⟨rfl, ha⟩ : d' = d ∧ a.toNat ≤ 5 := by simpa using h
    exact .inr (.inl ⟨a, o, rfl, ha⟩)
  case h_3 d' a high low o =>
    obtain ⟨rfl, ha⟩ : d' = d ∧ (a = 0x00#8 ∨ a = 0x05#8) := by simpa using h
    exact .inr (.inr (.inl ⟨a, high, low, o, rfl, ha⟩))
  case h_4 => cases h
  case h_5 d' o =>
    obtain rfl : d' = d := by simpa using h
    exact .inr (.inr (.inr ⟨o, rfl⟩))

/-- Whatever its outcomes, a command extends the trace by allowed events only. -/
theorem exec_trace_allowed {i : Instr} {s t : State} (h : exec i s = .next t) :
    ∃ events, t.trace = s.trace ++ events ∧ ∀ e ∈ events, e.allowed s.params.devAddr = true := by
  rcases exec_cases h with ⟨e, -, rfl⟩ | ⟨q, events, ws, rs, n, -, hallowed, hend⟩
  · exact ⟨[], by simp, by simp⟩
  · refine ⟨events, ?_, hallowed⟩
    rcases hend with ⟨rfl, -⟩ | ⟨before, last, -, -, ⟨-, rfl⟩ | ⟨-, rfl⟩⟩ <;> rfl

/-- Settles O48: every command makes its bus accesses by allowed events, and those are of the listed kinds. -/
theorem onlyAllowedTransactionsAreIssued : Obligations.OnlyAllowedTransactionsAreIssued := by
  intro i s t h
  obtain ⟨events, htrace, hallowed⟩ := exec_trace_allowed h
  exact ⟨events, htrace, fun e he => BusEvent.allowed_cases (hallowed e he)⟩

end Sys2Proof.Machine
end

