-- ==== Sys2Proof/Proofs/PatternOfValue.lean ====
section
/-! A binary64 pattern that is no NaN is the pattern of its value (20_memory.md R56): the sign bit, and the exponent and fraction
fields that the units of the value give back. -/

namespace Sys2Proof.Machine

/-- The units of a value from the first binade on give its exponent and fraction fields back. -/
theorem fpMagnitudeBits_normal {expo frac : Nat} (hexpo : expo ≠ 0) (hfrac : frac < 2 ^ 52) :
    fpMagnitudeBits ((2 ^ 52 + frac) * 2 ^ (expo - 1)) = expo * 2 ^ 52 + frac := by
  have hpos : 0 < 2 ^ (expo - 1) := by positivity
  have hbig : 2 ^ 52 ≤ (2 ^ 52 + frac) * 2 ^ (expo - 1) :=
    (Nat.le_add_right _ _).trans (Nat.le_mul_of_pos_right _ hpos)
  have hlog : Nat.log2 ((2 ^ 52 + frac) * 2 ^ (expo - 1)) = 52 + (expo - 1) := by
    rw [Nat.log2_eq_iff (by omega), Nat.pow_add, show 52 + (expo - 1) + 1 = 53 + (expo - 1) by omega, Nat.pow_add]
    exact ⟨Nat.mul_le_mul_right _ (by omega), Nat.mul_lt_mul_of_pos_right (by omega) hpos⟩
  rw [fpMagnitudeBits, if_neg (Nat.not_lt.mpr hbig)]
  simp only [hlog, Nat.add_sub_cancel_left]
  rw [Nat.mul_div_cancel _ hpos]
  omega

/-- A pattern is its sign bit and its other 63 bits put together. -/
theorem ofNat_sign_add_magnitude (b : RealBits) :
    BitVec.ofNat 64 ((if b.msb then 2 ^ 63 else 0) + b.toNat % 2 ^ 63) = b := by
  have hb := b.isLt
  apply BitVec.eq_of_toNat_eq
  rw [BitVec.toNat_ofNat, BitVec.msb_eq_decide]
  simp only [decide_eq_true_eq]
  split_ifs <;> omega

/-- Settles O40: by the exponent field, all ones, zero or between; in each case the value's magnitude bits are the low 63 bits of
the pattern. -/
theorem patternOfItsValue : Obligations.PatternOfItsValue := by
  intro b hnan
  refine Eq.trans ?_ (ofNat_sign_add_magnitude b)
  have hsplit : b.toNat % 2 ^ 63 = b.toNat / 2 ^ 52 % 2048 * 2 ^ 52 + b.toNat % 2 ^ 52 := by omega
  have hfrac : b.toNat % 2 ^ 52 < 2 ^ 52 := Nat.mod_lt _ (by positivity)
  rw [hsplit]
  unfold fpOfBits at hnan ⊢
  simp only at hnan ⊢
  generalize b.toNat / 2 ^ 52 % 2048 = expo at hnan ⊢
  generalize b.toNat % 2 ^ 52 = frac at hnan hfrac ⊢
  by_cases hones : expo = 2047
  · rw [if_pos hones] at hnan ⊢
    by_cases hzero : frac = 0
    · rw [if_pos hzero, fpToBits, hones, hzero, Nat.add_zero]
    · rw [if_neg hzero] at hnan
      exact absurd rfl hnan
  · rw [if_neg hones]
    by_cases hsubnormal : expo = 0
    · rw [if_pos hsubnormal, fpToBits, fpMagnitudeBits, if_pos hfrac, hsubnormal, Nat.zero_mul, Nat.zero_add]
    · rw [if_neg hsubnormal, fpToBits, fpMagnitudeBits_normal hsubnormal hfrac]

end Sys2Proof.Machine
end

