-- ==== Sys2Proof/Proofs/MeasureCommit.lean ====
section
/-! MEASURE commits the whole snapshot or none of it (20_memory.md R65, 43_measurement.md R107): its reads leave the registers and
the ports alone however they end, and the four words they return are the bytes of the four reads they add to the trace. -/

namespace Sys2Proof.Machine

/-! ### The reads in the trace -/

/-- The event is a 2-byte read (R51), whatever its outcome. -/
def BusEvent.isRead : BusEvent → Bool
  | .rd _ _ => true
  | _ => false

/-- The 2-byte reads of the trace, oldest first. -/
def State.reads (s : State) : List BusEvent := s.trace.filter BusEvent.isRead

theorem State.reads_recordEvent_of_isRead {s : State} {e : BusEvent} (h : e.isRead = true) :
    (s.recordEvent e).reads = s.reads ++ [e] := by
  simp [State.reads, h]

theorem State.reads_recordEvent_of_not_isRead {s : State} {e : BusEvent} (h : e.isRead = false) :
    (s.recordEvent e).reads = s.reads := by
  simp [State.reads, h]

@[simp] theorem State.reads_dropWriteOutcome (s : State) : s.dropWriteOutcome.reads = s.reads := by
  rw [State.reads, State.dropWriteOutcome_trace, State.reads]

@[simp] theorem State.reads_dropReadOutcome (s : State) : s.dropReadOutcome.reads = s.reads := by
  rw [State.reads, State.dropReadOutcome_trace, State.reads]

/-! ### What a returned operation has read -/

theorem Run.andThen_eq_returned {α β : Type} {r : Run α} {k : α → State → Run β} {b : β} {u : State}
    (h : r.andThen k = .returned b u) : ∃ a t, r = .returned a t ∧ k a t = .returned b u := by
  cases r with
  | returned a t => exact ⟨a, t, rfl, h⟩
  | raised e t => cases h
  | hung t => cases h

/-- From s to t one 2-byte read was answered, with the bytes of w. -/
def ReadsWord (s : State) (w : Word) (t : State) : Prop :=
  ∃ b0 b1, w = wordOfBytes b0 b1 ∧ t.reads = s.reads ++ [s.readEvent (.data b0 b1)]

theorem busWrite_returned {bytes : List Byte} {s t : State} {u : Unit} (h : busWrite bytes s = .returned u t) :
    t.reads = s.reads ∧ t.params = s.params := by
  unfold busWrite at h
  cases ho : s.nextWriteOutcome <;> rw [ho] at h <;> cases h
  exact ⟨(State.reads_recordEvent_of_not_isRead rfl).trans s.reads_dropWriteOutcome, by simp⟩

theorem busRead_returned {s t : State} {w : Word} (h : busRead s = .returned w t) :
    ReadsWord s w t ∧ t.params = s.params := by
  unfold busRead at h
  cases ho : s.nextReadOutcome <;> rw [ho] at h <;> cases h
  refine ⟨⟨_, _, rfl, ?_⟩, by simp⟩
  rw [State.reads_recordEvent_of_isRead rfl, State.reads_dropReadOutcome, State.readEvent]

theorem memRead_returned {a : Byte} {s t : State} {w : Word} (h : memRead a s = .returned w t) :
    ReadsWord s w t ∧ t.params = s.params := by
  obtain ⟨_, v, hpointer, hread⟩ := Run.andThen_eq_returned h
  obtain ⟨hreads, hparams⟩ := busWrite_returned hpointer
  obtain ⟨⟨b0, b1, hw, ht⟩, hparams'⟩ := busRead_returned hread
  exact ⟨⟨b0, b1, hw, by rw [ht, hreads, State.readEvent, hparams, State.readEvent]⟩, hparams'.trans hparams⟩

/-- The words of a returned `measureReads` are the bytes of the four reads it added to the trace (R107). -/
theorem measureReads_returned {s t : State} {ws wb wc wp : Word} (h : measureReads s = .returned (ws, wb, wc, wp) t) :
    ∃ s0 s1 u0 u1 c0 c1 p0 p1 : Byte,
      ws = wordOfBytes s0 s1 ∧ wb = wordOfBytes u0 u1 ∧ wc = wordOfBytes c0 c1 ∧ wp = wordOfBytes p0 p1 ∧
      t.reads = s.reads ++ [s.readEvent (.data s0 s1), s.readEvent (.data u0 u1), s.readEvent (.data c0 c1),
        s.readEvent (.data p0 p1)] := by
  obtain ⟨_, t1, hshunt, h⟩ := Run.andThen_eq_returned h
  obtain ⟨_, t2, hbus, h⟩ := Run.andThen_eq_returned h
  obtain ⟨_, t3, hwrite, h⟩ := Run.andThen_eq_returned h
  obtain ⟨_, t4, hcurrent, h⟩ := Run.andThen_eq_returned h
  obtain ⟨_, t5, hpower, h⟩ := Run.andThen_eq_returned h
  cases h
  obtain ⟨⟨s0, s1, rfl, h1⟩, hparams1⟩ := memRead_returned hshunt
  obtain ⟨⟨u0, u1, rfl, h2⟩, hparams2⟩ := memRead_returned hbus
  obtain ⟨h3, hparams3⟩ := busWrite_returned hwrite
  obtain ⟨⟨c0, c1, rfl, h4⟩, hparams4⟩ := memRead_returned hcurrent
  obtain ⟨⟨w0, w1, rfl, h5⟩, -⟩ := memRead_returned hpower
  refine ⟨s0, s1, u0, u1, c0, c1, w0, w1, rfl, rfl, rfl, rfl, ?_⟩
  simp [h5, h4, h3, h2, h1, State.readEvent, hparams4, hparams3, hparams2, hparams1]

/-! ### MEASURE -/

/-- However it ends, a bus access leaves the registers, the ports and BUSY as they were. -/
theorem BusAccess.state_frame {α : Type} {s : State} {r : Run α} (h : BusAccess s r) :
    r.state.regs = s.regs ∧ r.state.ports = s.ports ∧ r.state.busy = s.busy := by
  obtain ⟨events, ws, rs, n, hstate, -, -⟩ := h
  rw [hstate]
  exact ⟨rfl, rfl, rfl⟩

theorem CommandError.code_ne_zero (e : CommandError) : e.code ≠ 0#4 := by
  intro hzero
  exact absurd (hzero ▸ e.code_range.1) (by decide)

/-- Settles O36: by whether there is a calibration, and with one by how the reads of MEASURE end; only returned reads are followed
by the write of the snapshot. -/
theorem measureCommitsAllOrNothing : Obligations.MeasureCommitsAllOrNothing := by
  intro s t h
  rw [exec_next_iff, bodyOf] at h
  subst h
  cases hcal : s.regs.cal with
  | none =>
    rw [bodyMeasure_of_none (s := beginCommand s) hcal]
    exact .inr (.inl ⟨rfl, _, CommandError.code_ne_zero _, rfl, rfl⟩)
  | some c =>
    rw [bodyMeasure_eq (s := beginCommand s) hcal]
    obtain ⟨hregs, hports, hbusy⟩ := (measureReads_access (beginCommand s)).state_frame
    cases hreads : measureReads (beginCommand s) with
    | returned w u =>
      obtain ⟨ws, wb, wc, wp⟩ := w
      obtain ⟨s0, s1, u0, u1, c0, c1, p0, p1, hshunt, hbus, hcurrent, hpower, htrace⟩ := measureReads_returned hreads
      rw [hreads, Run.state_returned, beginCommand_regs] at hregs
      refine .inl ⟨rfl, snapshotOf u.params.fpFormat c ws wb wc wp, ?_, rfl,
        s0, s1, u0, u1, c0, c1, p0, p1, hshunt, hbus, hcurrent, hpower, htrace⟩
      simp only [Run.andThen_returned, finishCommand_returned, completeOk_regs, State.setRegs_regs, hregs]
    | raised e u =>
      rw [hreads, Run.state_raised, beginCommand_regs] at hregs
      exact .inr (.inl ⟨rfl, e.code, e.code_ne_zero, by simp [hregs], rfl⟩)
    | hung u =>
      rw [hreads] at hregs hports hbusy
      exact .inr (.inr ⟨hbusy, hregs, hports⟩)

end Sys2Proof.Machine
end

