-- ==== Sys2Proof/Proofs/ConfigWord.lean ====
section
/-! The config bitfield multiplexer and its inverse (30_encoding.md R75, R76), as arithmetic on the word's number. -/

namespace Sys2Proof.Machine

/-- A code joined to higher codes adds its number at its position. -/
theorem or_code_toNat {n : Nat} {x : Word} (c : BitVec n) (k : Nat) (h : n + k ≤ 16) (hx : 2 ^ (n + k) ∣ x.toNat) :
    (x ||| c.setWidth 16 <<< k).toNat = x.toNat + c.toNat * 2 ^ k := by
  have hlow : (c.setWidth 16 <<< k).toNat < 2 ^ (n + k) := by
    rw [code_toNat c k h, Nat.pow_add]
    exact Nat.mul_lt_mul_of_pos_right c.isLt (by positivity)
  rw [or_toNat_of_low hx hlow, code_toNat c k h]

/-- R75 in numbers: the five shifted codes stand in disjoint bit positions, so joining them adds them. -/
theorem pack_toNat (f : ConfigFields) :
    (pack f).toNat = f.range.toNat * 2 ^ 13 + f.gain.toNat * 2 ^ 11 + f.badc.toNat * 2 ^ 7 + f.sadc.toNat * 2 ^ 3 +
      f.mode.toNat := by
  have hrange := code_toNat f.range 13 (by decide)
  have hgain := or_code_toNat f.gain 11 (by decide) (by rw [hrange]; omega)
  have hbadc := or_code_toNat f.badc 7 (by decide) (by rw [hgain, hrange]; omega)
  have hsadc := or_code_toNat f.sadc 3 (by decide) (by rw [hbadc, hgain, hrange]; omega)
  have hmode := or_code_toNat f.mode 0 (by decide) (by rw [hsadc, hbadc, hgain, hrange]; omega)
  rw [BitVec.shiftLeft_zero] at hmode
  rw [pack, hmode, hsadc, hbadc, hgain, hrange, Nat.pow_zero, Nat.mul_one]

/-- Bits 15 and 14 of a packed word are 0 (R75). -/
theorem pack_lt (f : ConfigFields) : (pack f).toNat < 2 ^ 14 := by
  have hrange := f.range.isLt
  have hgain := f.gain.isLt
  have hbadc := f.badc.isLt
  have hsadc := f.sadc.isLt
  have hmode := f.mode.isLt
  rw [pack_toNat]
  omega

/-- Settles O6: by the number of the packed word, which is below 2^14. -/
theorem packPlacesTheFiveCodes : Obligations.PackPlacesTheFiveCodes := by
  refine ⟨fun f => ⟨rfl, pack_toNat f, ?_, ?_⟩, by decide⟩
  all_goals exact Nat.testBit_lt_two_pow (lt_of_lt_of_le (pack_lt f) (by decide))

/-- R76 in numbers. -/
theorem unpack_toNat (w : Word) :
    (unpack w).range.toNat = w.toNat / 2 ^ 13 % 2 ∧ (unpack w).gain.toNat = w.toNat / 2 ^ 11 % 4 ∧
    (unpack w).badc.toNat = w.toNat / 2 ^ 7 % 16 ∧ (unpack w).sadc.toNat = w.toNat / 2 ^ 3 % 16 ∧
    (unpack w).mode.toNat = w.toNat % 8 := by
  simp [unpack, BitVec.extractLsb'_toNat, Nat.shiftRight_eq_div_pow]

theorem configFields_eq_of_toNat_eq {f g : ConfigFields} (hrange : f.range.toNat = g.range.toNat)
    (hgain : f.gain.toNat = g.gain.toNat) (hbadc : f.badc.toNat = g.badc.toNat) (hsadc : f.sadc.toNat = g.sadc.toNat)
    (hmode : f.mode.toNat = g.mode.toNat) : f = g := by
  rw [ConfigFields.mk.injEq]
  exact ⟨BitVec.eq_of_toNat_eq hrange, BitVec.eq_of_toNat_eq hgain, BitVec.eq_of_toNat_eq hbadc,
    BitVec.eq_of_toNat_eq hsadc, BitVec.eq_of_toNat_eq hmode⟩

theorem unpack_pack (f : ConfigFields) : unpack (pack f) = f := by
  have hrange := f.range.isLt
  have hgain := f.gain.isLt
  have hbadc := f.badc.isLt
  have hsadc := f.sadc.isLt
  have hmode := f.mode.isLt
  have hpack := pack_toNat f
  obtain ⟨hrange', hgain', hbadc', hsadc', hmode'⟩ := unpack_toNat (pack f)
  apply configFields_eq_of_toNat_eq <;> omega

/-- Unpacking forgets bits 15 and 14 and nothing else. -/
theorem pack_unpack_toNat (w : Word) : (pack (unpack w)).toNat = w.toNat % 2 ^ 14 := by
  obtain ⟨hrange, hgain, hbadc, hsadc, hmode⟩ := unpack_toNat w
  rw [pack_toNat, hrange, hgain, hbadc, hsadc, hmode]
  omega

theorem pack_unpack (w : Word) : pack (unpack w) = w &&& 0x3FFF#16 := by
  apply BitVec.eq_of_toNat_eq
  rw [pack_unpack_toNat, BitVec.toNat_and]
  exact (Nat.and_two_pow_sub_one_eq_mod w.toNat 14).symm

theorem pack_unpack_of_lt {w : Word} (h : w.toNat < 2 ^ 14) : pack (unpack w) = w :=
  BitVec.eq_of_toNat_eq (by rw [pack_unpack_toNat, Nat.mod_eq_of_lt h])

/-- Settles O7: each law is about the numbers of the word and of its fields. -/
theorem unpackUndoesPack : Obligations.UnpackUndoesPack := ⟨unpack_toNat, unpack_pack, pack_unpack⟩

end Sys2Proof.Machine
end

