-- ==== Sys2Proof/Proofs/Encoding.lean ====
section
/-! Decoding and encoding undo each other (30_encoding.md R70 to R73), and decoding is the match with the opcode table (R72). -/

namespace Sys2Proof

/-! ### The two operands that leave the high bits of D zero -/

/-- The bits from k up are 0 exactly when the number is below 2^k. -/
theorem extractLsb'_high_eq_zero_iff {n k len : Nat} (x : BitVec n) (h : n = k + len) :
    x.extractLsb' k len = 0#len ↔ x.toNat < 2 ^ k := by
  have hhigh : x.toNat / 2 ^ k < 2 ^ len := Nat.div_lt_of_lt_mul (by rw [← Nat.pow_add, ← h]; exact x.isLt)
  rw [← BitVec.toNat_inj, BitVec.extractLsb'_toNat, Nat.shiftRight_eq_div_pow, Nat.mod_eq_of_lt hhigh,
    BitVec.toNat_ofNat, Nat.zero_mod, Nat.div_eq_zero_iff_lt (by positivity)]

/-- The zero column of APPLY_CONFIG (R71): D is then the packed word of its own fields. -/
theorem pack_unpack_of_zero {d : Word} (h : d.extractLsb' 14 2 = 0#2) : Machine.pack (Machine.unpack d) = d :=
  Machine.pack_unpack_of_lt ((extractLsb'_high_eq_zero_iff d rfl).mp h)

theorem pack_zero_column (f : ConfigFields) : (Machine.pack f).extractLsb' 14 2 = 0#2 :=
  (extractLsb'_high_eq_zero_iff _ rfl).mpr (Machine.pack_lt f)

/-- The zero column of SET_MODE (R71): D is then its own mode code. -/
theorem setWidth_mode_of_zero {d : Word} (h : d.extractLsb' 3 13 = 0#13) : (d.extractLsb' 0 3).setWidth 16 = d := by
  have hd : d.toNat < 2 ^ 3 := (extractLsb'_high_eq_zero_iff d rfl).mp h
  apply BitVec.eq_of_toNat_eq
  rw [BitVec.toNat_setWidth, BitVec.extractLsb'_toNat, Nat.shiftRight_zero]
  omega

theorem mode_zero_column (m : BitVec 3) : (m.setWidth 16).extractLsb' 3 13 = 0#13 := by
  have hm := m.isLt
  rw [extractLsb'_high_eq_zero_iff _ rfl, BitVec.toNat_setWidth]
  omega

theorem extractLsb'_mode (m : BitVec 3) : (m.setWidth 16).extractLsb' 0 3 = m := by
  rw [← BitVec.setWidth_eq_extractLsb' (by decide), BitVec.setWidth_setWidth_of_le m (by decide), BitVec.setWidth_eq]

/-! ### Encoding, then decoding -/

/-- Decoding a joined word is the table's check and its operands, on the fields it was joined from. -/
theorem decode_commandWord (op : BitVec 4) (a : Byte) (d : Word) (cr : RealBits) :
    decode (commandWord op a d) cr = if mustBeZeroOk op 0#4 a d then operandsOf op a d cr else none := by
  rw [decode, opField_commandWord, rsvField_commandWord, aField_commandWord, dField_commandWord]

/-- Settles O1: by the command; each encoded word meets its zero column, and its operands are read back. -/
theorem everyCommandDecodesFromItsEncodedWords : Obligations.EveryCommandDecodesFromItsEncodedWords := by
  intro i
  cases i with
  | applyConfig f =>
    simp [encode, decode_commandWord, mustBeZeroOk, operandsOf, pack_zero_column, Machine.unpack_pack]
  | setMode m => simp [encode, decode_commandWord, mustBeZeroOk, operandsOf, mode_zero_column, extractLsb'_mode]
  | init | readReg a | writeReg a v | resetDevice | standby | resume | calibrate cr | measure =>
    simp [encode, decode_commandWord, mustBeZeroOk, operandsOf]

/-! ### Decoding, then encoding -/

theorem commandWord_fields {cw : CommandWord} (h : rsvField cw = 0#4) :
    commandWord (opField cw) (aField cw) (dField cw) = cw := by
  have hrsv := congrArg BitVec.toNat h
  rw [rsvField_toNat, BitVec.toNat_ofNat] at hrsv
  apply BitVec.eq_of_toNat_eq
  rw [commandWord_toNat, opField_toNat, aField_toNat, dField_toNat]
  omega

/-- What a decoded word is. -/
theorem decode_eq_some_iff {cw : CommandWord} {cr : RealBits} {i : Instr} :
    decode cw cr = some i ↔
      mustBeZeroOk (opField cw) (rsvField cw) (aField cw) (dField cw) = true ∧
        operandsOf (opField cw) (aField cw) (dField cw) cr = some i := by
  rw [decode, Option.ite_none_right_eq_some]

theorem opcode_of_operandsOf {op : BitVec 4} {a : Byte} {d : Word} {cr : RealBits} {i : Instr}
    (hi : operandsOf op a d cr = some i) : op = i.opcode := by
  unfold operandsOf at hi
  split at hi <;> cases hi
  all_goals next hop => exact BitVec.eq_of_toNat_eq hop

/-- Fields that meet their command's zero column are, joined, its encoded word (R71). -/
theorem encode_operandsOf {op rsv : BitVec 4} {a : Byte} {d : Word} {cr : RealBits} {i : Instr}
    (hzero : mustBeZeroOk op rsv a d = true) (hi : operandsOf op a d cr = some i) :
    rsv = 0#4 ∧ (encode i).word = commandWord op a d ∧ ∀ x, i = .calibrate x → (encode i).real = cr := by
  obtain rfl := opcode_of_operandsOf hi
  cases i with
  | applyConfig f =>
    obtain ⟨⟨rfl, rfl⟩, htop⟩ : (rsv = 0#4 ∧ a = 0#8) ∧ d.extractLsb' 14 2 = 0#2 := by
      simpa [mustBeZeroOk, Instr.opcode] using hzero
    obtain rfl : Machine.unpack d = f := by simpa [operandsOf, Instr.opcode] using hi
    simp [encode, Instr.opcode, pack_unpack_of_zero htop]
  | setMode m =>
    obtain ⟨⟨rfl, rfl⟩, htop⟩ : (rsv = 0#4 ∧ a = 0#8) ∧ d.extractLsb' 3 13 = 0#13 := by
      simpa [mustBeZeroOk, Instr.opcode] using hzero
    obtain rfl : d.extractLsb' 0 3 = m := by simpa [operandsOf, Instr.opcode] using hi
    simp [encode, Instr.opcode, setWidth_mode_of_zero htop]
  | init | readReg a | writeReg a v | resetDevice | standby | resume | calibrate cr | measure =>
    simp_all [mustBeZeroOk, operandsOf, encode, Instr.opcode]

/-- Settles O2: the decoded word is its fields joined, for its reserved field is 0. -/
theorem decodedCommandEncodesBackToItsWord : Obligations.DecodedCommandEncodesBackToItsWord := by
  intro cw cr i h
  obtain ⟨hzero, hi⟩ := decode_eq_some_iff.mp h
  obtain ⟨hrsv, hword, hreal⟩ := encode_operandsOf hzero hi
  exact ⟨hword.trans (commandWord_fields hrsv), hreal⟩

/-! ### The real operand -/

theorem operandsOf_eq_of_ne_calibrate {op : BitVec 4} (hop : op ≠ 0x9#4) (a : Byte) (d : Word) (cr cr' : RealBits) :
    operandsOf op a d cr = operandsOf op a d cr' := by
  unfold operandsOf
  split
  case h_9 h => exact absurd (BitVec.eq_of_toNat_eq h) hop
  all_goals rfl

/-- Settles O5: the real operand goes into no other row's operands. -/
theorem realOperandIsReadOnlyByCalibrate : Obligations.RealOperandIsReadOnlyByCalibrate := by
  intro cw cr cr' hop
  rw [decode, decode, operandsOf_eq_of_ne_calibrate hop]

/-- Settles O4: each word is decoded. -/
theorem wordsOfTheSpecDecodeAsListed : Obligations.WordsOfTheSpecDecodeAsListed := by
  intro cr
  and_intros <;> rfl

/-! ### The opcode table -/

theorem commandWord_ext {x y : CommandWord} (hop : opField x = opField y) (hrsv : rsvField x = rsvField y)
    (ha : aField x = aField y) (hd : dField x = dField y) : x = y := by
  rw [← BitVec.toNat_inj] at hop hrsv ha hd ⊢
  rw [opField_toNat, opField_toNat] at hop
  rw [rsvField_toNat, rsvField_toNat] at hrsv
  rw [aField_toNat, aField_toNat] at ha
  rw [dField_toNat, dField_toNat] at hd
  omega

/-- A word matches a row field by field. -/
theorem and_eq_iff_fields {cw mask pattern : CommandWord} :
    cw &&& mask = pattern ↔
      opField cw &&& opField mask = opField pattern ∧ rsvField cw &&& rsvField mask = rsvField pattern ∧
        aField cw &&& aField mask = aField pattern ∧ dField cw &&& dField mask = dField pattern := by
  constructor
  · rintro rfl
    simp only [opField, rsvField, aField, dField, BitVec.extractLsb'_and, and_self]
  · rintro ⟨hop, hrsv, ha, hd⟩
    apply commandWord_ext <;> simpa only [opField, rsvField, aField, dField, BitVec.extractLsb'_and]

/-- A mask of the bits from k up checks that they are 0. -/
theorem and_highMask_eq_zero_iff {n k len : Nat} (x : BitVec n) (h : n = k + len) :
    x &&& (BitVec.allOnes n <<< k) = 0#n ↔ x.extractLsb' k len = 0#len := by
  have hshift : x.toNat / 2 ^ k * 2 ^ k < 2 ^ n := Nat.lt_of_le_of_lt (Nat.div_mul_le_self _ _) x.isLt
  rw [extractLsb'_high_eq_zero_iff x h, ← BitVec.shiftLeft_ushiftRight, ← BitVec.toNat_inj, BitVec.toNat_shiftLeft,
    BitVec.toNat_ushiftRight, Nat.shiftRight_eq_div_pow, Nat.shiftLeft_eq, Nat.mod_eq_of_lt hshift,
    BitVec.toNat_ofNat, Nat.zero_mod, ← Nat.div_eq_zero_iff_lt (by positivity : 0 < 2 ^ k)]
  simp

/-- A row's mask and match are its opcode and its zero column (R71, R72). -/
theorem row_matches_iff (cw : CommandWord) {row : OpcodeRow} (hrow : row ∈ opcodeRows) :
    cw &&& row.mask = row.pattern ↔ opField cw = opField row.pattern ∧
      mustBeZeroOk (opField cw) (rsvField cw) (aField cw) (dField cw) = true := by
  rw [and_eq_iff_fields]
  generalize opField cw = op, rsvField cw = rsv, aField cw = a, dField cw = d
  have hop : op &&& 0xF#4 = op := BitVec.and_allOnes
  have hrsv : rsv &&& 0xF#4 = rsv := BitVec.and_allOnes
  have ha : a &&& 0xFF#8 = a := BitVec.and_allOnes
  have hd : d &&& 0xFFFF#16 = d := BitVec.and_allOnes
  have hconfig : d &&& 0xC000#16 = 0#16 ↔ d.extractLsb' 14 2 = 0#2 := and_highMask_eq_zero_iff (k := 14) d rfl
  have hmode : d &&& 0xFFF8#16 = 0#16 ↔ d.extractLsb' 3 13 = 0#13 := and_highMask_eq_zero_iff (k := 3) d rfl
  simp only [opcodeRows, List.mem_cons, List.not_mem_nil, or_false] at hrow
  rcases hrow with rfl | rfl | rfl | rfl | rfl | rfl | rfl | rfl | rfl | rfl
  all_goals simp +contextual [opField, rsvField, aField, dField, hop, hrsv, ha, hd, hconfig, hmode, mustBeZeroOk,
    and_assoc]

/-- Every command has its row (R71). -/
theorem exists_row (i : Instr) :
    ∃ row ∈ opcodeRows, opField row.pattern = i.opcode ∧ row.mnemonic = i.mnemonic := by
  cases i <;> simp [opcodeRows, Instr.opcode, Instr.mnemonic, opField]

/-- No two rows have one opcode (R71). -/
theorem row_eq_of_opField_eq : ∀ row ∈ opcodeRows, ∀ row' ∈ opcodeRows,
    opField row.pattern = opField row'.pattern → row = row' := by decide

/-- A decoded word matches the row of its command (R72). -/
theorem decoded_matches_row {cw : CommandWord} {cr : RealBits} {i : Instr} (h : decode cw cr = some i) :
    ∃ row ∈ opcodeRows, cw &&& row.mask = row.pattern ∧ row.mnemonic = i.mnemonic := by
  obtain ⟨hzero, hi⟩ := decode_eq_some_iff.mp h
  obtain ⟨row, hrow, hop, hname⟩ := exists_row i
  exact ⟨row, hrow, (row_matches_iff cw hrow).mpr ⟨(opcode_of_operandsOf hi).trans hop.symm, hzero⟩, hname⟩

/-- Only an assigned opcode has a zero column, and each of them has its operands (R71, R73). -/
theorem operandsOf_isSome {op rsv : BitVec 4} {a : Byte} {d : Word} (cr : RealBits)
    (h : mustBeZeroOk op rsv a d = true) : (operandsOf op a d cr).isSome = true := by
  unfold operandsOf
  split
  case h_11 => simp_all [mustBeZeroOk]
  all_goals rfl

theorem decode_isSome_of_matches {cw : CommandWord} {row : OpcodeRow} (cr : RealBits) (hrow : row ∈ opcodeRows)
    (h : cw &&& row.mask = row.pattern) : (decode cw cr).isSome = true := by
  obtain ⟨-, hzero⟩ := (row_matches_iff cw hrow).mp h
  rw [decode, if_pos hzero]
  exact operandsOf_isSome cr hzero

/-- Settles O3: a row's mask and match say its opcode and its zero column, and the opcode tells the row. -/
theorem wordIsACommandExactlyWhenOneTableRowMatches : Obligations.WordIsACommandExactlyWhenOneTableRowMatches := by
  refine fun cw cr => ⟨⟨fun h => ?_, ?_⟩, fun i => decoded_matches_row, fun row hrow row' hrow' h h' => ?_⟩
  · obtain ⟨i, hi⟩ := Option.isSome_iff_exists.mp h
    obtain ⟨row, hrow, hmatch, -⟩ := decoded_matches_row hi
    exact ⟨row, hrow, hmatch⟩
  · rintro ⟨row, hrow, hmatch⟩
    exact decode_isSome_of_matches cr hrow hmatch
  · obtain ⟨hop, -⟩ := (row_matches_iff cw hrow).mp h
    obtain ⟨hop', -⟩ := (row_matches_iff cw hrow').mp h'
    exact row_eq_of_opField_eq row hrow row' hrow' (hop.symm.trans hop')

end Sys2Proof
end

