-- ==== Sys2Proof/Proofs/Assembler.lean ====
section
/-! The assembler against the encoder (30_encoding.md R89, R90): an operand that fits its field is joined into the word at its
position. -/

namespace Sys2Proof.Machine

/-- The fields of a command word, joined as the assembler joins them (R70, R89). -/
theorem commandWord_eq_or (op : BitVec 4) (a : Byte) (d : Word) :
    commandWord op a d = (op.setWidth 32 <<< 28) ||| (a.setWidth 32 <<< 16) ||| d.setWidth 32 := by
  have hjoin := BitVec.setWidth_append_append_append_eq_shiftLeft_setWidth_or (w'''' := 32) (b := op) (b' := 0#4)
    (b'' := a) (b''' := d)
  rwa [BitVec.setWidth_eq, BitVec.setWidth_zero, BitVec.zero_shiftLeft, BitVec.or_zero] at hjoin

/-- An operand that fits its field is the same number in the field and in the word. -/
theorem setWidth_ofNat_of_fits {width n : Nat} (h : fitsField width n = true) (v : Nat) (hv : width ≤ v) :
    (BitVec.ofNat width n).setWidth v = BitVec.ofNat v n :=
  BitVec.setWidth_ofNat_of_le_of_lt hv (of_decide_eq_true h)

theorem fitsField_of_le {width n : Nat} (h : fitsField width n = true) (v : Nat) (hv : width ≤ v) :
    fitsField v n = true :=
  decide_eq_true (Nat.lt_of_lt_of_le (of_decide_eq_true h) (Nat.pow_le_pow_right (by decide) hv))

/-- A line whose operands fit stands for the encoded words of its command. -/
theorem AsmLine.words_eq_encode (p : Params) {l : AsmLine} (h : l.wellFormed = true) :
    l.words p = encode (l.command p) := by
  cases l with
  | rdreg a =>
    simp [AsmLine.words, AsmLine.command, encode, commandWord_eq_or, setWidth_ofNat_of_fits h 32 (by decide)]
  | wrreg a v =>
    obtain ⟨ha, hv⟩ := (Bool.and_eq_true ..).mp h
    simp [AsmLine.words, AsmLine.command, encode, commandWord_eq_or, setWidth_ofNat_of_fits ha 32 (by decide),
      setWidth_ofNat_of_fits hv 32 (by decide)]
  | config rng gain b s m => simp [AsmLine.words, AsmLine.command, encode, commandWord_eq_or]
  | configw d =>
    have hpack : pack (unpack (BitVec.ofNat 16 d)) = BitVec.ofNat 16 d :=
      pack_unpack_of_lt (Nat.lt_of_le_of_lt (Nat.mod_le _ _) (of_decide_eq_true h))
    simp [AsmLine.words, AsmLine.command, encode, commandWord_eq_or, hpack,
      setWidth_ofNat_of_fits (fitsField_of_le h 16 (by decide)) 32 (by decide)]
  | setmode m =>
    simp [AsmLine.words, AsmLine.command, encode, commandWord_eq_or, setWidth_ofNat_of_fits h 16 (by decide),
      setWidth_ofNat_of_fits (fitsField_of_le h 16 (by decide)) 32 (by decide)]
  | pwrdn => simp [AsmLine.words, AsmLine.command, encode, commandWord_eq_or]
  | init | resetdev | standby | resume | cal neg num den | measure | configdef => rfl

theorem assemble_of_wellFormed (p : Params) {l : AsmLine} (h : l.wellFormed = true) :
    assemble p l = some (encode (l.command p)) := by
  rw [assemble, if_pos h, AsmLine.words_eq_encode p h]

/-- Settles O53: by the operand check. -/
theorem assemblerEmitsTheEncodedCommand : Obligations.AssemblerEmitsTheEncodedCommand :=
  fun p l => ⟨assemble_of_wellFormed p, fun h => by rw [assemble, if_neg (by simp [h])]⟩

/-! ### The pseudo-instructions -/

/-- The power-down code is never taken into `SAVED_MODE`, so writing it by SET_MODE is STANDBY (R97, R98). -/
theorem exec_setMode_powerDownCode (s : State) : exec (.setMode s.params.powerDownCode) s = exec .standby s := by
  have hbody : bodySetMode s.params.powerDownCode (beginCommand s) = bodyStandby (beginCommand s) := by
    simp [bodySetMode, bodyStandby, savedModeAfter]
  rw [exec_eq_runFrame, exec_eq_runFrame, runFrame, runFrame, bodyOf, bodyOf, hbody]

/-- Settles O52: each pseudo-instruction stands for the same command as the line it expands to. -/
theorem pseudoInstructionsExpand : Obligations.PseudoInstructionsExpand := by
  refine fun p => ⟨?_, ?_, exec_setMode_powerDownCode, fun s t h => ?_⟩
  · exact (assemble_of_wellFormed p rfl).trans (assemble_of_wellFormed p (l := .configw 0x399F) rfl).symm
  · have hfit : (AsmLine.setmode p.powerDownCode.toNat).wellFormed = true := decide_eq_true p.powerDownCode.isLt
    rw [assemble_of_wellFormed p rfl, assemble_of_wellFormed p hfit, AsmLine.command, AsmLine.command,
      BitVec.ofNat_toNat, BitVec.setWidth_eq]
  · obtain ⟨-, -, hcal, hsnap, -⟩ := registerFilesHaveTheListedWriters _ s t h
    exact ⟨(hcal rfl).1, hsnap rfl⟩

end Sys2Proof.Machine
end

