-- ==== Sys2Proof/Proofs/WordFormats.lean ====
section
/-! The register-address decoder and the reinterpretation of raw words (30_encoding.md R81 to R86). -/

namespace Sys2Proof.Machine

/-! ### The register-address decoder -/

/-- Settles O8: the six rows are looked up, and no address above the last is accepted. -/
theorem registerAddressDecoderTable : Obligations.RegisterAddressDecoderTable := by
  refine ⟨rfl, rfl, rfl, rfl, rfl, rfl, fun a ha => ?_⟩
  rw [Option.eq_none_iff_forall_ne_some]
  intro x hx
  exact absurd (regDecode_le hx) (by omega)

/-- The word format of each device register (the last column of R86). -/
def DeviceReg.format : DeviceReg → WordFormat
  | .config => .config
  | .shuntVoltage | .current => .signed
  | .busVoltage => .bus
  | .power | .calibration => .unsigned

/-- The decoder gives each register its own format (R86). -/
theorem regDecode_format {a : Byte} {reg : DeviceReg} {acc : Access} {fmt : WordFormat}
    (h : regDecode a = some (reg, acc, fmt)) : fmt = reg.format := by
  unfold regDecode at h
  split at h <;> cases h <;> rfl

/-! ### Signed words -/

theorem sext16_eq_ite (w : Word) :
    sext16 w = if w.toNat < 32768 then (w.toNat : Int) else (w.toNat : Int) - 65536 := by
  rw [sext16, BitVec.toInt_eq_toNat_cond]
  congr 1
  exact propext (by omega)

theorem sext16_range (w : Word) : -32768 ≤ sext16 w ∧ sext16 w ≤ 32767 :=
  ⟨BitVec.le_toInt w, Int.le_sub_one_of_lt BitVec.toInt_lt⟩

/-- Settles O9: two's complement in numbers, and the two registers whose format is signed. -/
theorem signedWordsAreTwosComplement : Obligations.SignedWordsAreTwosComplement := by
  refine ⟨fun w => ⟨sext16_eq_ite w, (sext16_range w).1, (sext16_range w).2, fun a reg acc fmt h hreg => ?_⟩,
    by decide, by decide⟩
  obtain rfl := regDecode_format h
  rcases hreg with rfl | rfl <;> rfl

/-! ### The Bus Voltage word -/

theorem busValue_toNat (w : Word) : (busValue w).toNat = w.toNat / 8 := by
  have hw := w.isLt
  rw [busValue, BitVec.extractLsb'_toNat, Nat.shiftRight_eq_div_pow]
  omega

theorem getLsbD_eq_decide (w : Word) (k : Nat) : w.getLsbD k = decide (w.toNat / 2 ^ k % 2 = 1) :=
  Nat.testBit_eq_decide_div_mod_eq

/-- Flipping bit 2 changes none of the three parts (R83). -/
theorem busDecode_xor_bit_two (w : Word) : busDecode (w ^^^ 0x0004#16) = busDecode w := by
  have hvalue : busValue (w ^^^ 0x0004#16) = busValue w := by
    rw [busValue, BitVec.extractLsb'_xor]
    exact BitVec.xor_zero
  have hcnvr : cnvrFlag (w ^^^ 0x0004#16) = cnvrFlag w := by simp [cnvrFlag]
  have hovf : ovfFlag (w ^^^ 0x0004#16) = ovfFlag w := by simp [ovfFlag]
  rw [busDecode, busDecode, hvalue, hcnvr, hovf]

/-- Settles O10: each part in numbers. -/
theorem busVoltageWordSplits : Obligations.BusVoltageWordSplits := fun w =>
  ⟨busValue_toNat w, getLsbD_eq_decide w 1, (getLsbD_eq_decide w 0).trans (by simp), busDecode_xor_bit_two w⟩

/-- Settles O56: by the register, whose format the decoder gives. -/
theorem unsignedBusAndConfigWordsReadAsTheirFormats : Obligations.UnsignedBusAndConfigWordsReadAsTheirFormats := by
  refine ⟨fun w a reg acc fmt h => ?_, by decide⟩
  obtain rfl := regDecode_format h
  refine ⟨fun hreg => ⟨?_, Nat.le_of_lt_succ w.isLt⟩, ?_, ?_⟩
  · rcases hreg with rfl | rfl <;> rfl
  · rintro rfl
    rfl
  · rintro rfl
    rfl

end Sys2Proof.Machine
end

