-- ==== Sys2Proof/Proofs/Acceptance.lean ====
section
/-! The acceptance of a command (30_encoding.md R69): what a step runs, and that the automatic INIT accepts nothing. -/

namespace Sys2Proof.Machine

/-- An idle block accepts the first offer and runs it (R69). -/
theorem step_of_offer {s : State} {o : PortWords} {rest : List PortWords} (hrst : s.rst = false)
    (hbusy : s.busy = false) (hoffers : s.offers = o :: rest) : step s = runLatched (acceptCommand o rest s) := by
  simp [step, hrst, hbusy, hoffers]

/-- A busy block with the automatic INIT pending runs it (R135). -/
theorem step_of_autoInit {s : State} (hrst : s.rst = false) (hbusy : s.busy = true) (hauto : s.autoInit = true) :
    step s = exec .init (startAutoInit s) := by
  simp [step, hrst, hbusy, hauto]

theorem runLatched_of_decode {s : State} {i : Instr} (h : decode s.cw s.cr = some i) : runLatched s = exec i s := by
  rw [runLatched, h]

theorem runLatched_of_illegal {s : State} (h : decode s.cw s.cr = none) :
    runLatched s = .next (completeWithError (.illegalCommand s.cw) (beginCommand s)) := by
  rw [runLatched, h]
  rfl

/-- Settles O13: the accepted words are the latched ones, and the latched word runs as the command it decodes to. -/
theorem stepRunsTheDecodedCommand : Obligations.StepRunsTheDecodedCommand := by
  intro s o rest i hrst hbusy hoffers hdecode
  rw [step_of_offer hrst hbusy hoffers, runLatched_of_decode (s := acceptCommand o rest s) hdecode]
  rfl

/-- Settles O14: an illegal word takes its error with nothing done before. -/
theorem illegalWordReportsCodeEight : Obligations.IllegalWordReportsCodeEight := by
  intro s o rest hrst hbusy hoffers hdecode
  rw [step_of_offer hrst hbusy hoffers, runLatched_of_illegal (s := acceptCommand o rest s) hdecode,
    State.completesError, List.append_nil]
  rfl

/-- A command writes neither latch and takes no offer. -/
theorem exec_keeps_offers_and_latches {i : Instr} {s t : State} (h : exec i s = .next t) :
    t.offers = s.offers ∧ t.cw = s.cw ∧ t.cr = s.cr := by
  rcases exec_cases h with ⟨e, -, rfl⟩ | ⟨q, events, ws, rs, n, -, -, hend⟩
  · exact ⟨rfl, rfl, rfl⟩
  · rcases hend with ⟨rfl, -⟩ | ⟨before, last, -, -, ⟨-, rfl⟩ | ⟨-, rfl⟩⟩ <;> exact ⟨rfl, rfl, rfl⟩

/-- Settles O16: the step is the command INIT, which takes no offer. -/
theorem offerIsHeldDuringTheAutomaticInit : Obligations.OfferIsHeldDuringTheAutomaticInit := by
  intro s hrst hbusy hauto
  have hinit := (exec_next_iff (i := .init) (s := startAutoInit s)).mpr rfl
  have hkept := exec_keeps_offers_and_latches hinit
  exact ⟨_, (step_of_autoInit hrst hbusy hauto).trans hinit, hkept⟩

end Sys2Proof.Machine
end

