-- ==== Sys2Proof/Proofs/CommandEndings.lean ====
section
/-! How a command leaves the state, read off the end of its body (60_exceptions.md R110, R111, R125), and how the words of a command
decode whatever `cmd_real` holds (30_encoding.md R72). -/

namespace Sys2Proof.Machine

/-! ### The frame around a body whose end is known

The state a running command has reached is the one it would be stuck in: BUSY at 1, no `done`, the ports as they were. -/

section
variable {i : Instr} {s : State} {r : Regs} {events : List BusEvent} {ws : List WriteOutcome} {rs : List ReadOutcome}

theorem exec_of_body_returned (h : bodyOf i (beginCommand s) = .returned () (s.staysStuck r events ws rs)) :
    exec i s = .next (s.completesOk r events ws rs) :=
  exec_next_iff.mpr (congrArg finishCommand h).symm

theorem exec_of_body_raised {e : CommandError}
    (h : bodyOf i (beginCommand s) = .raised e (s.staysStuck r events ws rs)) :
    exec i s = .next (s.completesError r e.code events ws rs) :=
  exec_next_iff.mpr (congrArg finishCommand h).symm

theorem exec_of_body_hung (h : bodyOf i (beginCommand s) = .hung (s.staysStuck r events ws rs)) :
    exec i s = .next (s.staysStuck r events ws rs) :=
  exec_next_iff.mpr (congrArg finishCommand h).symm

/-- A check that fails at the start of the body leaves nothing but the error record (R111). -/
theorem exec_of_check_failed {e : CommandError} (h : bodyOf i (beginCommand s) = .raised e (beginCommand s)) :
    exec i s = .next (s.completesError s.regs e.code [] s.writeAnswers s.readAnswers) :=
  exec_of_body_raised (by rw [h, State.staysStuck, List.append_nil]; rfl)

/-- A body that writes block registers and then makes one register write ends as that write does (R54, R111, R125). -/
theorem exec_of_body_eq_memWrite {a : Byte} {v : Word} {o : WriteOutcome}
    (hbody : bodyOf i (beginCommand s) = memWrite a v ((beginCommand s).setRegs r)) :
    s.writeAnswers = o :: ws →
    exec i s = .next
      (match o with
      | .ack => s.completesOk r [s.writeEvent a v .ack] ws s.readAnswers
      | .err => s.completesError r 1#4 [s.writeEvent a v .err] ws s.readAnswers
      | .noAnswer => s.staysStuck r [s.writeEvent a v .noAnswer] ws s.readAnswers) := by
  intro hw
  obtain ⟨-, -, hwrite⟩ := registerWriteProtocol a v ((beginCommand s).setRegs r) o ws hw
  cases o with
  | ack => exact exec_of_body_returned (hbody.trans hwrite)
  | err => exact exec_of_body_raised (e := .transportError) (hbody.trans hwrite)
  | noAnswer => exact exec_of_body_hung (hbody.trans hwrite)

end

/-! ### The words of a command -/

theorem opField_encode (i : Instr) : opField (encode i).word = i.opcode := by
  cases i <;> exact opField_commandWord _ _ _

/-- The encoded word of any command but CALIBRATE decodes to it under every real operand (R72). -/
theorem decode_encode_word {i : Instr} (hop : i.opcode ≠ 0x9#4) (cr : RealBits) :
    decode (encode i).word cr = some i := by
  rw [realOperandIsReadOnlyByCalibrate _ cr (encode i).real (by rwa [opField_encode]),
    everyCommandDecodesFromItsEncodedWords]

end Sys2Proof.Machine
end

