-- ==== Sys2Proof/Proofs/RegisterAccess.lean ====
section
/-! READ_REG and WRITE_REG (40_register_access.md R91, R92): their checks by device register, and every outcome of their
transactions. -/

namespace Sys2Proof.Machine

/-! ### The device registers by address -/

/-- The access rights of each device register (R30). -/
def DeviceReg.access : DeviceReg → Access
  | .config | .calibration => .readWrite
  | .shuntVoltage | .busVoltage | .power | .current => .readOnly

/-- The decoder's row of each device register (R86). -/
theorem regDecode_address (reg : DeviceReg) : regDecode reg.address = some (reg, reg.access, reg.format) := by
  cases reg <;> rfl

/-- The addresses up to 0x05 are those of the device registers (R30). -/
theorem exists_address_eq {a : Byte} (ha : a.toNat ≤ 0x05) : ∃ reg : DeviceReg, a = reg.address := by
  interval_cases h : a.toNat
  · exact ⟨.config, BitVec.eq_of_toNat_eq h⟩
  · exact ⟨.shuntVoltage, BitVec.eq_of_toNat_eq h⟩
  · exact ⟨.busVoltage, BitVec.eq_of_toNat_eq h⟩
  · exact ⟨.power, BitVec.eq_of_toNat_eq h⟩
  · exact ⟨.current, BitVec.eq_of_toNat_eq h⟩
  · exact ⟨.calibration, BitVec.eq_of_toNat_eq h⟩

theorem DeviceReg.needsCalibration_iff (reg : DeviceReg) :
    reg.needsCalibration = true ↔ reg.address = 0x03#8 ∨ reg.address = 0x04#8 := by
  cases reg <;> decide

theorem DeviceReg.access_eq_readOnly_iff (reg : DeviceReg) :
    reg.access = .readOnly ↔ 0x01 ≤ reg.address.toNat ∧ reg.address.toNat ≤ 0x04 := by
  cases reg <;> decide

theorem DeviceReg.access_eq_readWrite_iff (reg : DeviceReg) :
    reg.access = .readWrite ↔ reg.address = 0x00#8 ∨ reg.address = 0x05#8 := by
  cases reg <;> decide

theorem regDecode_eq_none {a : Byte} (ha : 0x05 < a.toNat) : regDecode a = none := by
  obtain ⟨-, -, -, -, -, -, hnone⟩ := registerAddressDecoderTable
  exact hnone a ha

/-! ### READ_REG -/

theorem bodyReadReg_of_invalid {a : Byte} (ha : 0x05 < a.toNat) (s : State) :
    bodyReadReg a s = .raised (.invalidRegisterAddress a) s := by
  rw [bodyReadReg, regDecode_eq_none ha]

theorem bodyReadReg_of_stale {reg : DeviceReg} {s : State} (hreg : reg.needsCalibration = true)
    (hcal : s.regs.calValid = false) :
    bodyReadReg reg.address s = .raised (.staleCalibration (.register reg.address)) s := by
  simp [bodyReadReg, regDecode_address, hreg, hcal]

theorem bodyReadReg_of_checked {reg : DeviceReg} {s : State}
    (h : reg.needsCalibration = true → s.regs.calValid = true) :
    bodyReadReg reg.address s =
      (memRead reg.address s).andThen fun w t => .returned () (t.setRegs { t.regs with rdata := some w }) := by
  have hpass : (reg.needsCalibration && !s.regs.calValid) = false := by simpa using h
  simp [bodyReadReg, regDecode_address, hpass]

/-- Settles O21: by the two checks, and past them by the outcome of the register read. -/
theorem readRegisterCommand : Obligations.ReadRegisterCommand := by
  intro a s
  refine ⟨fun cr => ?decoded, fun ha => ?invalid, fun ha hcal => ?stale, fun ha hcal ws rs => ?read⟩
  case decoded =>
    have hword : (encode (.readReg a)).word = 0x20000000#32 ||| (a.setWidth 32 <<< 16) := by
      simp [encode, commandWord_eq_or]
    rw [← hword, decode_encode_word (by simp [Instr.opcode])]
  case invalid => exact exec_of_check_failed (i := .readReg a) (bodyReadReg_of_invalid ha (beginCommand s))
  case stale =>
    obtain ⟨reg, rfl⟩ := exists_address_eq (a := a) (by rcases ha with rfl | rfl <;> decide)
    exact exec_of_check_failed (i := .readReg _)
      (bodyReadReg_of_stale (s := beginCommand s) (reg.needsCalibration_iff.mpr ha) hcal)
  case read =>
    obtain ⟨reg, rfl⟩ := exists_address_eq ha
    have hbody := bodyReadReg_of_checked (s := beginCommand s) (hcal ∘ reg.needsCalibration_iff.mp)
    obtain ⟨-, hprotocol⟩ := registerReadProtocol
    obtain ⟨hpointerErr, hpointerHung, hread⟩ := hprotocol reg.address (beginCommand s) ws
    refine ⟨fun b0 b1 hw hr => ?_, fun hw => ?_, fun hw => ?_, fun hw hr => ?_, fun hw hr => ?_⟩
    · exact exec_of_body_returned (hbody.trans (by rw [hread _ rs hw hr]; rfl))
    · exact exec_of_body_raised (e := .transportError) (hbody.trans (by rw [hpointerErr hw]; rfl))
    · exact exec_of_body_hung (hbody.trans (by rw [hpointerHung hw]; rfl))
    · exact exec_of_body_raised (e := .transportError) (hbody.trans (by rw [hread _ rs hw hr]; rfl))
    · exact exec_of_body_hung (hbody.trans (by rw [hread _ rs hw hr]; rfl))

/-! ### WRITE_REG -/

theorem bodyWriteReg_of_invalid {a : Byte} (ha : 0x05 < a.toNat) (v : Word) (s : State) :
    bodyWriteReg a v s = .raised (.invalidRegisterAddress a) s := by
  rw [bodyWriteReg, regDecode_eq_none ha]

theorem bodyWriteReg_of_readOnly {reg : DeviceReg} (hreg : reg.access = .readOnly) (v : Word) (s : State) :
    bodyWriteReg reg.address v s = .raised (.registerNotWritable reg.address) s := by
  rw [bodyWriteReg, regDecode_address, hreg]

theorem bodyWriteReg_of_readWrite {reg : DeviceReg} (hreg : reg.access = .readWrite) (v : Word) (s : State) :
    bodyWriteReg reg.address v s = memWrite reg.address v s := by
  rw [bodyWriteReg, regDecode_address, hreg]

/-- Settles O22: by the two checks, and past them by the outcome of the one write, which comes after no register write. -/
theorem writeRegisterCommand : Obligations.WriteRegisterCommand := by
  intro a v s
  refine ⟨fun cr => ?decoded, fun ha => ?invalid, fun hlow hhigh => ?readOnly, fun ha o ws hw => ?write⟩
  case decoded =>
    have hword : (encode (.writeReg a v)).word = 0x30000000#32 ||| (a.setWidth 32 <<< 16) ||| v.setWidth 32 := by
      simp [encode, commandWord_eq_or]
    rw [← hword, decode_encode_word (by simp [Instr.opcode])]
  case invalid => exact exec_of_check_failed (i := .writeReg a v) (bodyWriteReg_of_invalid ha v (beginCommand s))
  case readOnly =>
    obtain ⟨reg, rfl⟩ := exists_address_eq (hhigh.trans (by decide))
    exact exec_of_check_failed (i := .writeReg _ v)
      (bodyWriteReg_of_readOnly (reg.access_eq_readOnly_iff.mpr ⟨hlow, hhigh⟩) v (beginCommand s))
  case write =>
    obtain ⟨reg, rfl⟩ := exists_address_eq (a := a) (by rcases ha with rfl | rfl <;> decide)
    exact exec_of_body_eq_memWrite (i := .writeReg _ v) (r := s.regs)
      (bodyWriteReg_of_readWrite (reg.access_eq_readWrite_iff.mpr ha) v (beginCommand s)) hw

end Sys2Proof.Machine
end

