-- ==== Sys2Proof/Proofs/Configuration.lean ====
section
/-! INIT, APPLY_CONFIG, RESET_DEVICE, SET_MODE, STANDBY and RESUME (41_configuration.md R93 to R100): every outcome of their
register writes. -/

namespace Sys2Proof.Machine

/-- A register write adds its event to those of the running command, and ends as its outcome says (R54). -/
theorem memWrite_staysStuck (a : Byte) (v : Word) (s : State) (r : Regs) (events : List BusEvent) (o : WriteOutcome)
    (ws : List WriteOutcome) (rs : List ReadOutcome) :
    memWrite a v (s.staysStuck r events (o :: ws) rs) =
      let t := s.staysStuck r (events ++ [s.writeEvent a v o]) ws rs
      match o with
      | .ack => .returned () t
      | .err => .raised .transportError t
      | .noAnswer => .hung t := by
  obtain ⟨-, -, hwrite⟩ := registerWriteProtocol a v (s.staysStuck r events (o :: ws) rs) o ws rfl
  rw [hwrite, State.staysStuck, State.staysStuck, List.append_assoc]
  rfl

/-! ### INIT -/

/-- The fields of DEFAULT_CONFIG (R14, R94). -/
theorem unpack_defaultConfig : unpack 0x399F#16 = ⟨1#1, 3#2, 3#4, 3#4, 7#3⟩ := by decide

/-- INIT up to its first register write: the state writes and `BEGIN`. -/
theorem bodyInit_beginCommand {s : State} {ws : List WriteOutcome} (hw : s.writeAnswers = ws) :
    bodyInit (beginCommand s) =
      (memWrite 0x00#8 0x399F#16 (s.staysStuck (initRegs s.regs) [.begin] ws s.readAnswers)).andThen
        fun _ t => memWrite 0x05#8 0x0000#16 t := by
  rw [← hw]
  rfl

/-- Settles O20: by the outcomes of the two writes; the second is made only when the first was acknowledged. -/
theorem initCommand : Obligations.InitCommand := by
  refine ⟨decode_encode_word (i := .init) (by decide), fun s ws => ?_⟩
  have hregs : initRegs s.regs = { s.regs with
      cfg := ⟨1#1, 3#2, 3#4, 3#4, 7#3⟩, savedMode := 7#3, calValue := 0x0000#16
      cal := none, snap := none, rdata := none } := by
    rw [← unpack_defaultConfig]
    rfl
  rw [← hregs]
  refine ⟨pack_unpack_of_lt (by decide : (0x399F#16).toNat < 2 ^ 14), fun hw => ?completed, fun hw => ?configFailed,
    fun hw => ?configPending, fun hw => ?calibrationFailed, fun hw => ?calibrationPending⟩
  case completed => exact exec_of_body_returned ((bodyInit_beginCommand hw).trans (by simp [memWrite_staysStuck]))
  case configFailed | calibrationFailed =>
    exact exec_of_body_raised (e := .transportError) ((bodyInit_beginCommand hw).trans (by simp [memWrite_staysStuck]))
  case configPending | calibrationPending =>
    exact exec_of_body_hung ((bodyInit_beginCommand hw).trans (by simp [memWrite_staysStuck]))

/-! ### APPLY_CONFIG -/

/-- The ADC codes that are not legal (R79). -/
theorem adcLegal_eq_false_iff (c : BitVec 4) : adcLegal c = false ↔ 4 ≤ c.toNat ∧ c.toNat ≤ 7 := by
  rw [adcLegal, decide_eq_false_iff_not]
  omega

section
variable {f : ConfigFields}

theorem bodyApplyConfig_of_badc (hb : adcLegal f.badc = false) (s : State) :
    bodyApplyConfig f s = .raised (.invalidConfigurationValue .badc f.badc) s := by
  simp [bodyApplyConfig, hb]

theorem bodyApplyConfig_of_sadc (hb : adcLegal f.badc = true) (hs : adcLegal f.sadc = false) (s : State) :
    bodyApplyConfig f s = .raised (.invalidConfigurationValue .sadc f.sadc) s := by
  simp [bodyApplyConfig, hb, hs]

theorem bodyApplyConfig_of_legal (hb : adcLegal f.badc = true) (hs : adcLegal f.sadc = true) (s : State) :
    bodyApplyConfig f s = memWrite 0x00#8 (pack f)
      (s.setRegs { s.regs with cfg := f, savedMode := savedModeAfter s.params s.regs.savedMode f.mode }) := by
  simp [bodyApplyConfig, hb, hs, writeConfig]

end

/-- Settles O23: by the two ADC checks, BADC first, and past them by the outcome of the one write, which follows the state
writes. -/
theorem applyConfigCommand : Obligations.ApplyConfigCommand := by
  intro f s
  simp only [← and_imp, ← adcLegal_eq_false_iff, Bool.not_eq_false]
  refine ⟨fun cr => ?decoded, fun hb => bodyApplyConfig_of_badc hb s, fun ⟨hb, hs⟩ => bodyApplyConfig_of_sadc hb hs s,
    fun hillegal => ?refused, fun ⟨hb, hs⟩ o ws => ?write⟩
  case decoded =>
    have hword : (encode (.applyConfig f)).word = 0x40000000#32 ||| (pack f).setWidth 32 := by
      simp [encode, commandWord_eq_or]
    rw [← hword, decode_encode_word (by simp [Instr.opcode])]
  case refused =>
    cases hb : adcLegal f.badc with
    | false => exact exec_of_check_failed (i := .applyConfig f) (bodyApplyConfig_of_badc hb (beginCommand s))
    | true =>
      have hs : adcLegal f.sadc = false := by simpa [hb] using hillegal
      exact exec_of_check_failed (i := .applyConfig f) (bodyApplyConfig_of_sadc hb hs (beginCommand s))
  case write => exact exec_of_body_eq_memWrite (i := .applyConfig f) (bodyApplyConfig_of_legal hb hs (beginCommand s))

/-! ### RESET_DEVICE -/

/-- Settles O24: by the outcome of the one write; the state writes come after it (R93). -/
theorem resetDeviceCommand : Obligations.ResetDeviceCommand := by
  refine ⟨decode_encode_word (i := .resetDevice) (by decide), fun s o ws hw => ?_⟩
  obtain ⟨-, -, hwrite⟩ := registerWriteProtocol 0x00#8 0x8000#16 (beginCommand s) o ws hw
  rw [exec_next_iff, bodyOf, bodyResetDevice, Config.resetSentinel, hwrite]
  cases o with
  | ack | err | noAnswer => rfl

/-! ### The mode commands

Each is its state write, then one write of the packed configuration. -/

/-- Settles O25: the state writes come before the one write, so they stand whatever its outcome. -/
theorem setModeCommand : Obligations.SetModeCommand := by
  refine fun m s o ws => ⟨fun cr => ?decoded, exec_of_body_eq_memWrite (i := .setMode m) rfl⟩
  have hword : (encode (.setMode m)).word = 0x60000000#32 ||| m.setWidth 32 := by
    simp [encode, commandWord_eq_or]
  rw [← hword, decode_encode_word (by simp [Instr.opcode])]

/-- Settles O26: the state write comes before the one write, so it stands whatever its outcome. -/
theorem standbyCommand : Obligations.StandbyCommand :=
  ⟨decode_encode_word (i := .standby) (by decide), fun _ _ _ => exec_of_body_eq_memWrite rfl⟩

/-- Settles O27: as STANDBY, with the saved mode. -/
theorem resumeCommand : Obligations.ResumeCommand :=
  ⟨decode_encode_word (i := .resume) (by decide), fun _ _ _ => exec_of_body_eq_memWrite rfl⟩

/-! ### STANDBY, then RESUME -/

theorem pack_injective : Function.Injective pack := Function.LeftInverse.injective unpack_pack

/-- Settles O51: the two commands leave CFG with the mode `SAVED_MODE`, which is the mode it had unless that was the power-down
code, and is never the power-down code (R35, R100). -/
theorem standbyThenResumeRestoresTheWord : Obligations.StandbyThenResumeRestoresTheWord := by
  intro s ws hinv hw
  obtain ⟨-, hstandby⟩ := standbyCommand
  obtain ⟨-, hresume⟩ := resumeCommand
  refine ⟨_, _, hstandby s .ack (.ack :: ws) hw, hresume _ .ack ws rfl, rfl, rfl, fun hmode => ?restored,
    fun hmode => ⟨rfl, fun hpack => ?resumed⟩⟩
  case restored =>
    have hsaved : s.regs.savedMode = s.regs.cfg.mode := (hinv.regs_legal.mode_eq.resolve_right hmode).symm
    exact congrArg (fun m => pack { s.regs.cfg with mode := m }) hsaved
  case resumed =>
    have hsaved : s.regs.savedMode = s.regs.cfg.mode := congrArg ConfigFields.mode (pack_injective hpack)
    exact hinv.regs_legal.savedMode_ne (hsaved.trans hmode)

end Sys2Proof.Machine
end

