-- ==== Sys2Proof/Proofs/CalibrationArithmetic.lean ====
section
/-! The arithmetic of CALIBRATE (42_calibration.md R101 to R104): the sign of a quotient, the scaling by `CURRENT_DIV`, which is
exact in the range of R102's corner case, and the ceiling of a `fmin`. -/

namespace Sys2Proof.Machine

/-! ### The value of a computed pattern -/

theorem fpOfBits_fpToBits_nan : fpOfBits (fpToBits .nan) = .nan := by decide

/-- Every quotient survives its pattern. -/
theorem fpOfBits_fdiv (fmt : FpFormat) (a b : RealBits) :
    fpOfBits (fdiv fmt a b) = divValue fmt (fpOfBits a) (fpOfBits b) := by
  rw [fdiv]
  unfold divValue
  split
  case h_1 | h_2 | h_3 => exact fpOfBits_fpToBits_nan
  case h_4 => exact fpOfBits_fpToBits_inf _
  case h_5 => exact fpOfBits_fpToBits_of_lt _ (by decide)
  case h_6 =>
    split_ifs
    · exact fpOfBits_fpToBits_nan
    · exact fpOfBits_fpToBits_inf _
    · exact fpOfBits_fpToBits_fpRound _ _ _ _

/-- Every product survives its pattern. -/
theorem fpOfBits_fmul (fmt : FpFormat) (a b : RealBits) :
    fpOfBits (fmul fmt a b) = mulValue fmt (fpOfBits a) (fpOfBits b) := by
  rw [fmul]
  unfold mulValue
  split
  case h_1 | h_2 => exact fpOfBits_fpToBits_nan
  case h_3 => exact fpOfBits_fpToBits_inf _
  case h_4 | h_5 =>
    split_ifs
    · exact fpOfBits_fpToBits_nan
    · exact fpOfBits_fpToBits_inf _
  case h_6 => exact fpOfBits_fpToBits_fpRound _ _ _ _

theorem fpOfBits_flDecimal (fmt : FpFormat) (num den : Nat) :
    fpOfBits (flDecimal fmt num den) = fpRound fmt false (num * fpOne) den :=
  fpOfBits_fpToBits_fpRound fmt false (num * fpOne) den

/-! ### The sign of a product or quotient -/

/-- The value carries a minus sign. -/
def FpValue.negative : FpValue → Bool
  | .nan => false
  | .inf neg => neg
  | .finite neg _ => neg

@[simp] theorem FpValue.negative_nan : FpValue.nan.negative = false := rfl
@[simp] theorem FpValue.negative_inf (neg : Bool) : (FpValue.inf neg).negative = neg := rfl
@[simp] theorem FpValue.negative_finite (neg : Bool) (units : Nat) : (FpValue.finite neg units).negative = neg := rfl

@[simp] theorem fpRound_negative (fmt : FpFormat) (neg : Bool) (num den : Nat) :
    (fpRound fmt neg num den).negative = neg := by
  unfold fpRound
  split_ifs <;> rfl

/-- A product of values without a sign has none. -/
theorem mulValue_negative_eq_false (fmt : FpFormat) {a b : FpValue} (ha : a.negative = false) (hb : b.negative = false) :
    (mulValue fmt a b).negative = false := by
  unfold mulValue
  split
  case h_1 | h_2 => rfl
  case h_4 | h_5 => split_ifs <;> simp_all
  case h_3 | h_6 => simp_all

/-- A quotient of values without a sign has none. -/
theorem divValue_negative_eq_false (fmt : FpFormat) {a b : FpValue} (ha : a.negative = false) (hb : b.negative = false) :
    (divValue fmt a b).negative = false := by
  unfold divValue
  split
  case h_1 | h_2 | h_3 => rfl
  case h_4 | h_5 => simp_all
  case h_6 => split_ifs <;> simp_all

/-! ### The quotient of step 9 and its truncation -/

/-- A positive value carries no sign. -/
theorem negative_of_isPositive {a : RealBits} (h : isPositive a = true) : (fpOfBits a).negative = false := by
  unfold isPositive at h
  split at h <;> simp_all

/-- The quotient of a positive current carries no sign: every operand of steps 2 and 9 is without one. -/
theorem calQuotient_negative_eq_false (fmt : FpFormat) {i : RealBits} (hi : isPositive i = true) :
    (fpOfBits (calQuotient fmt (fdiv fmt i (currentDiv fmt)))).negative = false := by
  have hconst (num den : Nat) : (fpOfBits (flDecimal fmt num den)).negative = false := by simp [fpOfBits_flDecimal]
  rw [calQuotient, fpOfBits_fdiv, fpOfBits_fmul, fpOfBits_fdiv]
  exact divValue_negative_eq_false fmt (hconst _ _)
    (mulValue_negative_eq_false fmt (divValue_negative_eq_false fmt (negative_of_isPositive hi) (hconst _ _)) (hconst _ _))

theorem fpOne_pos : 0 < fpOne := by
  unfold fpOne
  positivity

/-- The truncation of a finite value without a sign is the whole number of 1.0s in it. -/
theorem truncFp_of_finite {a : RealBits} {units : Nat} (h : fpOfBits a = .finite false units) :
    truncFp a = (units / fpOne : Nat) := by
  rw [truncFp, h]
  rfl

/-- The 16-bit truncation of a finite value without a sign is the whole number of 1.0s in it. -/
theorem calValueOf_bounds {q : RealBits} (hsign : (fpOfBits q).negative = false) (hfinite : isFinite q = true)
    (hrange : truncFp q ≤ 65535) :
    ∃ units, fpOfBits q = .finite false units ∧ (calValueOf q).toNat * fpOne ≤ units ∧
      units < ((calValueOf q).toNat + 1) * fpOne := by
  unfold isFinite at hfinite
  split at hfinite
  case h_1 neg units hq =>
    obtain rfl : neg = false := by rwa [hq] at hsign
    have htrunc := truncFp_of_finite hq
    rw [htrunc] at hrange
    have hvalue : (calValueOf q).toNat = units / fpOne := by
      rw [calValueOf, htrunc, BitVec.ofInt_natCast, BitVec.toNat_ofNat, Nat.mod_eq_of_lt (by omega)]
    rw [hvalue]
    exact ⟨units, hq, Nat.div_mul_le_self units fpOne, Nat.lt_mul_of_div_lt (Nat.lt_succ_self _) fpOne_pos⟩
  case h_2 | h_3 => cases hfinite

/-! ### Scaling by CURRENT_DIV -/

/-- A value of the format in its range is the rounding of any quotient equal to it. -/
theorem fpRound_of_formatValue {fmt : FpFormat} (neg : Bool) {num den m e : Nat} (hden : 0 < den)
    (hm : m ≤ 2 ^ fpPrecision fmt) (he : fpMinShift fmt ≤ e) (hrange : m * 2 ^ e < 2 ^ fpOverflowShift fmt)
    (hnum : num = m * 2 ^ e * den) : fpRound fmt neg num den = .finite neg (m * 2 ^ e) := by
  rw [hnum, fpRound, roundUnits_of_formatValue hden hm he, if_pos hrange]

/-- A whole number as a literal is its conversion, which is exact. -/
theorem fpOfBits_flDecimal_one (fmt : FpFormat) {n : Nat} (hn : n ≤ 65536) :
    fpOfBits (flDecimal fmt n 1) = .finite false (n * fpOne) := by
  have hexact := integerConversionIsExact fmt n hn
  rwa [toFp, decide_eq_false (by omega), Int.natAbs_natCast] at hexact

theorem fpOfBits_currentDiv (fmt : FpFormat) : fpOfBits (currentDiv fmt) = .finite false (32768 * fpOne) :=
  fpOfBits_flDecimal_one fmt (by decide)

/-- A binary64 value that is a format value also after a division by 32768 comes back when it is multiplied again. -/
theorem fmul_fdiv_currentDiv {a : RealBits} {neg : Bool} {m e : Nat} (ha : fpOfBits a = .finite neg (m * 2 ^ (e + 15)))
    (hm : m ≤ 2 ^ fpPrecision .binary64) (hrange : m * 2 ^ (e + 15) < 2 ^ fpOverflowShift .binary64) :
    fmul .binary64 (fdiv .binary64 a (currentDiv .binary64)) (currentDiv .binary64) = a := by
  have hpow : 2 ^ (e + 15) = 2 ^ e * 32768 := Nat.pow_add 2 e 15
  have hquotient : fpOfBits (fdiv .binary64 a (currentDiv .binary64)) = .finite neg (m * 2 ^ e) := by
    rw [fpOfBits_fdiv, ha, fpOfBits_currentDiv, divValue_finite_of_pos _ _ _ _ (Nat.mul_pos (by decide) fpOne_pos),
      Bool.bne_false]
    refine fpRound_of_formatValue neg (Nat.mul_pos (by decide) fpOne_pos) hm (Nat.zero_le e) ?inRange ?exact
    case inRange => exact (Nat.mul_le_mul_left m (Nat.pow_le_pow_right (by decide) (Nat.le_add_right e 15))).trans_lt hrange
    case exact =>
      generalize fpOne = one
      rw [hpow]
      ring
  have hproduct : m * 2 ^ e * (32768 * fpOne) = m * 2 ^ (e + 15) * fpOne := by
    generalize fpOne = one
    rw [hpow]
    ring
  rw [fmul, hquotient, fpOfBits_currentDiv, mulValue, Bool.bne_false,
    fpRound_of_formatValue neg fpOne_pos hm (Nat.zero_le (e + 15)) hrange hproduct, ← ha]
  exact patternOfItsValue a (by rw [ha]; exact nofun)

/-- Settles O33: the value of the pattern has 15 powers of two to spare, so steps 2 and 4 of R102 are both exact. -/
theorem maxCurrentIsTheExpectedCurrent : Obligations.MaxCurrentIsTheExpectedCurrent := by
  intro cr range gain hlow hhigh
  obtain ⟨e, he⟩ : ∃ e, cr.toNat / 2 ^ 52 % 2048 = e + 16 := ⟨cr.toNat / 2 ^ 52 % 2048 - 16, by omega⟩
  have hsign : cr.msb = false := by rw [BitVec.msb_eq_decide, decide_eq_false_iff_not]; omega
  have hvalue : fpOfBits cr = .finite false ((2 ^ 52 + cr.toNat % 2 ^ 52) * 2 ^ (e + 15)) := by
    unfold fpOfBits
    simp only [he, hsign]
    rw [if_neg (by omega), if_neg (by omega)]
    rfl
  have hm : 2 ^ 52 + cr.toNat % 2 ^ 52 < 2 ^ 53 := by omega
  have hrange : (2 ^ 52 + cr.toNat % 2 ^ 52) * 2 ^ (e + 15) < 2 ^ fpOverflowShift .binary64 :=
    calc (2 ^ 52 + cr.toNat % 2 ^ 52) * 2 ^ (e + 15)
        < 2 ^ 53 * 2 ^ (e + 15) := Nat.mul_lt_mul_of_pos_right hm (by positivity)
      _ = 2 ^ (53 + (e + 15)) := (Nat.pow_add 2 _ _).symm
      _ ≤ 2 ^ fpOverflowShift .binary64 := Nat.pow_le_pow_right (by decide) (by rw [fpOverflowShift]; omega)
  exact fmul_fdiv_currentDiv hvalue hm.le hrange

/-! ### The lookups and the clamp -/

theorem fpRound_ne_nan (fmt : FpFormat) (neg : Bool) (num den : Nat) : fpRound fmt neg num den ≠ .nan := by
  unfold fpRound
  split_ifs <;> exact nofun

theorem fpOfBits_vShuntMax_ne_nan (fmt : FpFormat) (gain : BitVec 2) : fpOfBits (vShuntMax fmt gain) ≠ .nan := by
  unfold vShuntMax
  split_ifs <;> exact fpOfBits_flDecimal fmt _ _ ▸ fpRound_ne_nan fmt _ _ _

theorem leValue_refl {v : FpValue} (h : v ≠ .nan) : leValue v v = true := by
  cases v with
  | nan => exact absurd rfl h
  | inf neg => cases neg <;> rfl
  | finite neg units => exact decide_eq_true (le_refl _)

/-- The smaller of two values is not above the second one, whatever the first one is. -/
theorem fle_fmin_right (a : RealBits) {b : RealBits} (hb : fpOfBits b ≠ .nan) : fle (fmin a b) b = true := by
  unfold fmin
  split_ifs with hle
  · exact hle
  · exact leValue_refl hb

/-- Settles O34: the lookups are evaluated in each format; the clamp is the `fmin` of step 7, whose second operand is the gain's
ceiling. -/
theorem lookupsAndShuntClamp : Obligations.LookupsAndShuntClamp := by
  intro fmt
  refine ⟨?_, ?_, ?_, ?_, ?_, ?_, fun range gain i => ⟨fle_fmin_right _ (fpOfBits_vShuntMax_ne_nan fmt gain), rfl, rfl⟩⟩
  all_goals cases fmt <;> decide +kernel

end Sys2Proof.Machine
end

