-- ==== Sys2Proof/Proofs/Calibrate.lean ====
section
/-! CALIBRATE (42_calibration.md R102, R103): its two checks, and past them the write of the results and of the device's
Calibration register, for every outcome of that write. -/

namespace Sys2Proof.Machine

/-! ### The three ways CALIBRATE goes -/

/-- The current is taken: after rounding to the format it is finite and above 0.0 (R102). -/
def CurrentAccepted (fmt : FpFormat) (cr : RealBits) : Prop :=
  isFinite (flBits fmt cr) = true ∧ isPositive (flBits fmt cr) = true

/-- The quotient of step 9 for a real operand. -/
def quotientOf (fmt : FpFormat) (cr : RealBits) : RealBits :=
  calQuotient fmt (fdiv fmt (flBits fmt cr) (currentDiv fmt))

theorem calInRange_iff {q : RealBits} : calInRange q = true ↔ isFinite q = true ∧ truncFp q ≤ 65535 := by
  rw [calInRange, Bool.and_eq_true, decide_eq_true_eq]

/-- The registers CALIBRATE writes, from registers r (R102, steps 1 to 9). -/
def calibratedRegs (fmt : FpFormat) (cr : RealBits) (r : Regs) : Regs :=
  { r with
    cal := some (calResult fmt r.cfg.range r.cfg.gain (flBits fmt cr))
    calValue := calValueOf (quotientOf fmt cr) }

section
variable {cr : RealBits} {s t : State}

theorem bodyCalibrate_of_refused (h : ¬CurrentAccepted s.params.fpFormat cr) :
    bodyCalibrate cr s = .raised (.invalidCurrentInput (flBits s.params.fpFormat cr)) s := by
  refine if_pos ?_
  simpa [CurrentAccepted, imp_iff_not_or] using h

theorem bodyCalibrate_of_accepted (h : CurrentAccepted s.params.fpFormat cr) :
    bodyCalibrate cr s =
      if !calInRange (quotientOf s.params.fpFormat cr) then
        .raised (.calibrationRange (quotientOf s.params.fpFormat cr)) s
      else memWrite 0x05#8 (calValueOf (quotientOf s.params.fpFormat cr))
        (s.setRegs (calibratedRegs s.params.fpFormat cr s.regs)) := by
  obtain ⟨hfinite, hpositive⟩ := h
  refine if_neg ?_
  simp [hfinite, hpositive]

theorem bodyCalibrate_of_beyond (h : CurrentAccepted s.params.fpFormat cr)
    (hq : calInRange (quotientOf s.params.fpFormat cr) = false) :
    bodyCalibrate cr s = .raised (.calibrationRange (quotientOf s.params.fpFormat cr)) s := by
  rw [bodyCalibrate_of_accepted h, hq]
  rfl

theorem bodyCalibrate_of_computed (h : CurrentAccepted s.params.fpFormat cr)
    (hq : calInRange (quotientOf s.params.fpFormat cr) = true) :
    bodyCalibrate cr s = memWrite 0x05#8 (calValueOf (quotientOf s.params.fpFormat cr))
      (s.setRegs (calibratedRegs s.params.fpFormat cr s.regs)) := by
  rw [bodyCalibrate_of_accepted h, hq]
  rfl

/-- A refused current is reported by code 4. -/
theorem exec_calibrate_of_refused (ht : exec (.calibrate cr) s = .next t) (h : ¬CurrentAccepted s.params.fpFormat cr) :
    t.regs.status = 4#4 := by
  obtain rfl := exec_next_iff.mp ht
  rw [bodyOf, bodyCalibrate_of_refused (s := beginCommand s) h]
  rfl

/-- A quotient beyond 16 bits is reported by code 5. -/
theorem exec_calibrate_of_beyond (ht : exec (.calibrate cr) s = .next t) (h : CurrentAccepted s.params.fpFormat cr)
    (hq : calInRange (quotientOf s.params.fpFormat cr) = false) : t.regs.status = 5#4 := by
  obtain rfl := exec_next_iff.mp ht
  rw [bodyOf, bodyCalibrate_of_beyond (s := beginCommand s) h hq]
  rfl

/-- A body that writes registers r and then only accesses the bus leaves them, but for the record of a completed command. -/
theorem exec_regs_of_access {i : Instr} {r : Regs} (ht : exec i s = .next t)
    (hbody : BusAccess ((beginCommand s).setRegs r) (bodyOf i (beginCommand s))) :
    (t.busy = true ∧ t.regs = r) ∨ t.regs = { r with status := 0#4 } ∨
      t.regs = { r with status := 1#4, errSticky := setSticky r.errSticky 1#4 } := by
  obtain rfl := exec_next_iff.mp ht
  obtain ⟨hregs, -, hbusy⟩ := hbody.state_frame
  obtain ⟨_, _, _, _, -, -, hend⟩ := hbody
  cases hrun : bodyOf i (beginCommand s) with
  | returned u v =>
    rw [hrun, Run.state_returned, State.setRegs_regs] at hregs
    exact .inr (.inl (by rw [finishCommand_returned, completeOk_regs, hregs]))
  | raised e v =>
    rw [hrun] at hregs hend
    obtain ⟨rfl, -⟩ := hend
    rw [Run.state_raised, State.setRegs_regs] at hregs
    exact .inr (.inr (by rw [finishCommand_raised, completeWithError_regs, hregs]; rfl))
  | hung v =>
    rw [hrun] at hregs hbusy
    exact .inl ⟨hbusy, hregs⟩

/-- Past the checks the results stand whatever the write's outcome, queued or free, and a completed command reports neither
check. -/
theorem exec_calibrate_of_computed (ht : exec (.calibrate cr) s = .next t) (h : CurrentAccepted s.params.fpFormat cr)
    (hq : calInRange (quotientOf s.params.fpFormat cr) = true) :
    t.regs.cal = (calibratedRegs s.params.fpFormat cr s.regs).cal ∧
      t.regs.calValue = calValueOf (quotientOf s.params.fpFormat cr) ∧
      (t.busy = false → t.regs.status ≠ 4#4 ∧ t.regs.status ≠ 5#4) := by
  have hbody : BusAccess ((beginCommand s).setRegs (calibratedRegs s.params.fpFormat cr s.regs))
      (bodyOf (.calibrate cr) (beginCommand s)) := by
    rw [bodyOf, bodyCalibrate_of_computed (s := beginCommand s) h hq]
    exact memWrite_access _ _ _ (.inr rfl)
  rcases exec_regs_of_access ht hbody with ⟨hbusy, hregs⟩ | hregs | hregs
  · rw [hregs]
    exact ⟨rfl, rfl, fun hidle => absurd (hbusy.symm.trans hidle) (by decide)⟩
  · rw [hregs]
    exact ⟨rfl, rfl, fun _ => (by decide : (0#4 : BitVec 4) ≠ 4#4 ∧ (0#4 : BitVec 4) ≠ 5#4)⟩
  · rw [hregs]
    exact ⟨rfl, rfl, fun _ => (by decide : (1#4 : BitVec 4) ≠ 4#4 ∧ (1#4 : BitVec 4) ≠ 5#4)⟩

end

/-- Settles O28: past the two checks the body is the state write and one register write. -/
theorem calibrateCommand : Obligations.CalibrateCommand := by
  refine ⟨fun cr => everyCommandDecodesFromItsEncodedWords (.calibrate cr), ?_⟩
  intro cr s o ws fmt i lsb vShunt mpc mc mcbo msv q c r hfinite hpositive hqfinite hqrange
  exact exec_of_body_eq_memWrite (i := .calibrate cr) (r := calibratedRegs fmt cr s.regs)
    (bodyCalibrate_of_computed (s := beginCommand s) ⟨hfinite, hpositive⟩ (calInRange_iff.mpr ⟨hqfinite, hqrange⟩))

/-- Settles O31: the quotient carries no sign, so its truncation is the whole number below it; the two values of R103 are
evaluated. -/
theorem calibrationValueIsTruncated : Obligations.CalibrationValueIsTruncated := by
  refine ⟨?_, fun fmt => ?_, ?_⟩
  · intro cr s fmt i q hfinite hpositive hqfinite hqrange
    obtain ⟨units, hunits, hlow, hhigh⟩ := calValueOf_bounds (calQuotient_negative_eq_false fmt hpositive) hqfinite hqrange
    obtain ⟨-, hvalue, -⟩ := exec_calibrate_of_computed (exec_next_iff.mpr rfl : exec (.calibrate cr) s = .next _)
      ⟨hfinite, hpositive⟩ (calInRange_iff.mpr ⟨hqfinite, hqrange⟩)
    exact ⟨_, units, exec_next_iff.mpr rfl, hunits, hvalue ▸ hlow, hvalue ▸ hhigh⟩
  · cases fmt <;> decide +kernel
  · decide +kernel

/-- Settles O32: which way CALIBRATE goes, and the two steps that make the three values, read the format and the current alone. -/
theorem calibrationDependsOnTheCurrentAlone : Obligations.CalibrationDependsOnTheCurrentAlone := by
  intro cr s s' t t' hfmt ht ht' hidle hidle'
  by_cases h : CurrentAccepted s.params.fpFormat cr
  case neg =>
    rw [exec_calibrate_of_refused ht h, exec_calibrate_of_refused ht' (hfmt ▸ h)]
    exact ⟨Iff.rfl, Iff.rfl, fun h4 => absurd rfl h4⟩
  case pos =>
    cases hq : calInRange (quotientOf s.params.fpFormat cr) with
    | false =>
      rw [exec_calibrate_of_beyond ht h hq, exec_calibrate_of_beyond ht' (hfmt ▸ h) (hfmt ▸ hq)]
      exact ⟨Iff.rfl, Iff.rfl, fun _ h5 => absurd rfl h5⟩
    | true =>
      obtain ⟨hcal, hvalue, hstatus⟩ := exec_calibrate_of_computed ht h hq
      obtain ⟨hcal', hvalue', hstatus'⟩ := exec_calibrate_of_computed ht' (hfmt ▸ h) (hfmt ▸ hq)
      obtain ⟨h4, h5⟩ := hstatus hidle
      obtain ⟨h4', h5'⟩ := hstatus' hidle'
      rw [← hfmt] at hcal' hvalue'
      exact ⟨iff_of_false h4 h4', iff_of_false h5 h5', fun _ _ =>
        ⟨hvalue.trans hvalue'.symm, _, _, hcal, hcal', rfl, rfl⟩⟩

end Sys2Proof.Machine
end

