-- ==== Sys2Proof/Proofs/Measure.lean ====
section
/-! MEASURE transaction by transaction (43_measurement.md R107 to R109): answered throughout, and cut short at any of its nine. -/

namespace Sys2Proof.Machine

/-! ### Transactions of a running command that succeed

Each adds its events to those of the command and draws its answers (R50, R51); the registers stay as they are. -/

section
variable {s : State} {r : Regs} {events : List BusEvent} {ws : List WriteOutcome} {rs : List ReadOutcome}

@[simp] theorem State.staysStuck_regs : (s.staysStuck r events ws rs).regs = r := rfl

theorem memRead_staysStuck_of_answered (a b0 b1 : Byte) :
    memRead a (s.staysStuck r events (.ack :: ws) (.data b0 b1 :: rs)) = .returned (wordOfBytes b0 b1)
      (s.staysStuck r (events ++ [s.pointerEvent a .ack, s.readEvent (.data b0 b1)]) ws rs) := by
  rw [memRead_of_answered a (s := s.staysStuck r events (.ack :: ws) (.data b0 b1 :: rs)) rfl rfl]
  simp only [State.staysStuck, List.append_assoc]
  rfl

theorem memWrite_staysStuck_of_ack (a : Byte) (v : Word) :
    memWrite a v (s.staysStuck r events (.ack :: ws) rs) =
      .returned () (s.staysStuck r (events ++ [s.writeEvent a v .ack]) ws rs) :=
  memWrite_staysStuck a v s r events .ack ws rs

end

/-! ### Transactions that do not succeed -/

/-- How a transaction fails to succeed: it reports failure, or it is never answered (R50, R51). -/
inductive Setback where
  | failure
  | silence

namespace Setback

/-- The outcome it is of a write transaction (R50). -/
def writeOutcome : Setback → WriteOutcome
  | .failure => .err
  | .silence => .noAnswer

/-- The outcome it is of a read transaction (R51). -/
def readOutcome : Setback → ReadOutcome
  | .failure => .err
  | .silence => .noAnswer

/-- What the setback makes of the operation in which it happens, and of every operation around that one (R111, R125). -/
def run {α : Type} : Setback → State → Run α
  | .failure, t => .raised .transportError t
  | .silence, t => .hung t

/-- What the setback makes of the command (R110, R125). -/
def ending (f : Setback) (s : State) (r : Regs) (events : List BusEvent) (ws : List WriteOutcome)
    (rs : List ReadOutcome) : State :=
  match f with
  | .failure => s.completesError r 1#4 events ws rs
  | .silence => s.staysStuck r events ws rs

/-- No later line of the body runs (R111). -/
@[simp] theorem run_andThen {α β : Type} (f : Setback) (t : State) (k : α → State → Run β) :
    (f.run t).andThen k = f.run t := by
  cases f <;> rfl

end Setback

section
variable {s : State} {r : Regs} {events : List BusEvent} {ws : List WriteOutcome} {rs : List ReadOutcome}

theorem exec_of_body_setback {f : Setback} {i : Instr}
    (h : bodyOf i (beginCommand s) = f.run (s.staysStuck r events ws rs)) :
    exec i s = .next (f.ending s r events ws rs) := by
  cases f with
  | failure => exact exec_of_body_raised (e := .transportError) h
  | silence => exact exec_of_body_hung h

theorem memWrite_staysStuck_of_setback (f : Setback) (a : Byte) (v : Word) :
    memWrite a v (s.staysStuck r events (f.writeOutcome :: ws) rs) =
      f.run (s.staysStuck r (events ++ [s.writeEvent a v f.writeOutcome]) ws rs) := by
  rw [memWrite_staysStuck]
  cases f <;> rfl

/-- A register read whose pointer write does not succeed makes no 2-byte read (R53). -/
theorem memRead_staysStuck_of_pointer_setback (f : Setback) (a : Byte) :
    memRead a (s.staysStuck r events (f.writeOutcome :: ws) rs) =
      f.run (s.staysStuck r (events ++ [s.pointerEvent a f.writeOutcome]) ws rs) := by
  rw [memRead, busWrite_of_queued (o := f.writeOutcome) (ws := ws) [a] rfl]
  cases f <;> simp only [Setback.writeOutcome, State.staysStuck, List.append_assoc] <;> rfl

theorem memRead_staysStuck_of_read_setback (f : Setback) (a : Byte) :
    memRead a (s.staysStuck r events (.ack :: ws) (f.readOutcome :: rs)) =
      f.run (s.staysStuck r (events ++ [s.pointerEvent a .ack, s.readEvent f.readOutcome]) ws rs) := by
  rw [memRead_of_pointer_ack a rfl, busRead_of_queued (o := f.readOutcome) (rs := rs) rfl]
  cases f <;> simp only [Setback.readOutcome, State.staysStuck, List.append_assoc] <;> rfl

end

/-! ### MEASURE -/

section
variable {s : State} {c : CalResult} {ws : List WriteOutcome} {rs : List ReadOutcome}

/-- MEASURE under a calibration, its answers named (R107). -/
theorem bodyOf_measure_beginCommand (hcal : s.regs.cal = some c) (hw : s.writeAnswers = ws) (hr : s.readAnswers = rs) :
    bodyOf .measure (beginCommand s) = (measureReads (s.staysStuck s.regs [] ws rs)).andThen fun w t => .returned ()
      (t.setRegs { t.regs with snap := some (snapshotOf t.params.fpFormat c w.1 w.2.1 w.2.2.1 w.2.2.2) }) := by
  have hbegin : beginCommand s = s.staysStuck s.regs [] ws rs := by
    rw [← hw, ← hr, State.staysStuck, List.append_nil]
    rfl
  rw [← hbegin]
  exact bodyMeasure_eq (s := beginCommand s) hcal

/-- A setback in the reads of MEASURE is one of MEASURE: the snapshot is not written (R107). -/
theorem exec_measure_of_setback {f : Setback} {ws' : List WriteOutcome} {rs' : List ReadOutcome}
    {events : List BusEvent} (hcal : s.regs.cal = some c) (hw : s.writeAnswers = ws) (hr : s.readAnswers = rs)
    (h : measureReads (s.staysStuck s.regs [] ws rs) = f.run (s.staysStuck s.regs events ws' rs')) :
    exec .measure s = .next (f.ending s s.regs events ws' rs') :=
  exec_of_body_setback (by rw [bodyOf_measure_beginCommand hcal hw hr, h, Setback.run_andThen])

end

theorem scaleBus_eq (fmt : FpFormat) (w : Word) :
    scaleBus fmt w = fmul fmt (toFp fmt ((w.toNat / 8 : Nat) : Int)) (flDecimal fmt 4 1000) := by
  rw [scaleBus, busValue_toNat]
  rfl

/-- Settles O35: the four reads and the calibration write follow one another, each answered, and the snapshot is that of their
words. -/
theorem measureCommand : Obligations.MeasureCommand := by
  refine ⟨decode_encode_word (i := .measure) (by decide), ?_⟩
  intro s c ws rs s0 s1 u0 u1 c0 c1 p0 p1 hcal hw hr fmt shunt bus current power
  rw [← scaleBus_eq]
  refine exec_of_body_returned ?_
  rw [bodyOf_measure_beginCommand hcal hw hr]
  simp only [measureReads, memRead_staysStuck_of_answered, memWrite_staysStuck_of_ack, Run.andThen_returned]
  rfl

/-- A MEASURE answered throughout, as the next command finds the block. -/
theorem exec_measure_of_answered {s : State} {c : CalResult} {ws : List WriteOutcome} {rs : List ReadOutcome}
    {s0 s1 u0 u1 c0 c1 p0 p1 : Byte} (hcal : s.regs.cal = some c)
    (hw : s.writeAnswers = .ack :: .ack :: .ack :: .ack :: .ack :: ws)
    (hr : s.readAnswers = .data s0 s1 :: .data u0 u1 :: .data c0 c1 :: .data p0 p1 :: rs) :
    ∃ t, exec .measure s = .next t ∧ t.writeAnswers = ws ∧ t.readAnswers = rs ∧ t.params = s.params ∧
      t.regs = { s.regs with
        status := 0#4
        snap := some (snapshotOf s.params.fpFormat c (wordOfBytes s0 s1) (wordOfBytes u0 u1) (wordOfBytes c0 c1)
          (wordOfBytes p0 p1)) } := by
  obtain ⟨-, hmeasure⟩ := measureCommand
  refine ⟨_, hmeasure s c ws rs s0 s1 u0 u1 c0 c1 p0 p1 hcal hw hr, rfl, rfl, rfl, ?_⟩
  rw [snapshotOf, scaleBus_eq]
  rfl

/-- Settles O38: the first run leaves the calibration and the parameters alone, so the second makes its snapshot of the same words
by the same calibration. -/
theorem measureTwiceOnEqualBytesGivesEqualSnapshots : Obligations.MeasureTwiceOnEqualBytesGivesEqualSnapshots := by
  refine ⟨by decide, fun s ws rs s0 s1 u0 u1 c0 c1 p0 p1 hvalid hw hr => ?_⟩
  obtain ⟨c, hcal⟩ := Option.isSome_iff_exists.mp hvalid
  obtain ⟨t, ht, htw, htr, htparams, htregs⟩ := exec_measure_of_answered hcal hw hr
  have htcal : t.regs.cal = some c := by rw [htregs, hcal]
  obtain ⟨u, hu, -, -, -, huregs⟩ := exec_measure_of_answered htcal htw htr
  exact ⟨t, u, _, ht, hu, by rw [htregs], by rw [huregs, htparams], by rw [htregs], by rw [huregs]⟩

/-- Settles O57: by the nine transactions; those before the unsuccessful one are answered, and it ends the reads of MEASURE. -/
theorem measureStopsAtItsFirstUnsuccessfulTransaction :
    Obligations.MeasureStopsAtItsFirstUnsuccessfulTransaction := by
  intro s c s0 s1 u0 u1 c0 c1 p0 p1 ws rs hcal answers nine writes reads
  refine ⟨fun row hrow hr => ?write, fun row hrow hw => ?read⟩
  case write =>
    suffices h : ∀ f : Setback, measureReads (s.staysStuck s.regs []
        (List.replicate row.2.2.1 .ack ++ f.writeOutcome :: ws) (answers.take row.2.2.2 ++ rs)) =
          f.run (s.staysStuck s.regs (nine.take row.1 ++ [row.2.1 f.writeOutcome]) ws rs) from
      ⟨fun hw => exec_measure_of_setback hcal hw hr (h .failure),
        fun hw => exec_measure_of_setback hcal hw hr (h .silence)⟩
    intro f
    simp only [writes, List.mem_cons, List.not_mem_nil, or_false] at hrow
    rcases hrow with rfl | rfl | rfl | rfl | rfl <;>
      simp [measureReads, memRead_staysStuck_of_answered, memWrite_staysStuck_of_ack,
        memWrite_staysStuck_of_setback, memRead_staysStuck_of_pointer_setback, answers, nine]
  case read =>
    suffices h : ∀ f : Setback, measureReads (s.staysStuck s.regs []
        (List.replicate row.2.1 .ack ++ ws) (answers.take row.2.2 ++ f.readOutcome :: rs)) =
          f.run (s.staysStuck s.regs (nine.take row.1 ++ [s.readEvent f.readOutcome]) ws rs) from
      ⟨fun hr => exec_measure_of_setback hcal hw hr (h .failure),
        fun hr => exec_measure_of_setback hcal hw hr (h .silence)⟩
    intro f
    simp only [reads, List.mem_cons, List.not_mem_nil, or_false] at hrow
    rcases hrow with rfl | rfl | rfl | rfl <;>
      simp [measureReads, memRead_staysStuck_of_answered, memWrite_staysStuck_of_ack,
        memRead_staysStuck_of_read_setback, answers, nine]

end Sys2Proof.Machine
end

