-- ==== Sys2Proof/Proofs/Exceptions.lean ====
section
/-! Errors and unanswered transactions (60_exceptions.md R111, R116 to R120, R125): which transactions a command
has made by the way it ended, and the checks that end a command before it has done anything. -/

namespace Sys2Proof.Machine

/-! ### The last transaction of a command -/

/-- What BUSY and `STATUS` tell of a command's transactions: all succeeded, the last one failed (R116), or the last one was never
answered (R125). -/
theorem exec_transactions_cases {i : Instr} {s t : State} (h : exec i s = .next t) :
    (t.busy = false ∧ t.regs.status ≠ 1#4 ∧
      ∃ events, t.trace = s.trace ++ events ∧ ∀ e ∈ events, e.succeeded = true) ∨
    ∃ before last, t.trace = s.trace ++ before ++ [last] ∧ (∀ e ∈ before, e.succeeded = true) ∧
      ((last.failed = true ∧ t.busy = false ∧ t.regs.status = 1#4) ∨
        (last.pending = true ∧ t.busy = true ∧ t.done = false ∧ t.ports = s.ports)) := by
  rcases exec_cases h with ⟨e, hcode, rfl⟩ | ⟨q, events, ws, rs, n, -, -, hend⟩
  · exact .inl ⟨rfl, hcode, [], by simp, by simp⟩
  · rcases hend with ⟨rfl, hall⟩ | ⟨before, last, rfl, hbefore, ⟨hlast, rfl⟩ | ⟨hlast, rfl⟩⟩
    · exact .inl ⟨rfl, by simp, events, rfl, hall⟩
    · exact .inr ⟨before, last, by simp, hbefore, .inl ⟨hlast, rfl, rfl⟩⟩
    · exact .inr ⟨before, last, by simp, hbefore, .inr ⟨hlast, rfl, rfl, rfl⟩⟩

/-- A busy block with no automatic INIT pending has no step (R125). -/
theorem step_of_stuck {s : State} (hrst : s.rst = false) (hbusy : s.busy = true) (hauto : s.autoInit = false) :
    step s = .fault .transportNeverAnswered := by
  simp [step, hrst, hbusy, hauto]

theorem step_of_rst {s : State} (hrst : s.rst = true) : step s = .next (hardwareReset s) := if_pos hrst

/-- A command one of whose transactions was never answered is stuck (R125). -/
theorem exec_stuck_of_pending {i : Instr} {s t : State} {events : List BusEvent} (h : exec i s = .next t)
    (htrace : t.trace = s.trace ++ events) (hpending : ∃ e ∈ events, e.pending = true) :
    t.busy = true ∧ t.done = false := by
  obtain ⟨e, he, hpending⟩ := hpending
  have hnot : e.succeeded ≠ true := fun hs => by simp [BusEvent.not_pending_of_succeeded hs] at hpending
  rcases exec_transactions_cases h with ⟨-, -, events', htrace', hall⟩ | ⟨before, last, htrace', hbefore, hlast⟩
  · obtain rfl := List.append_cancel_left (htrace.symm.trans htrace')
    exact absurd (hall e he) hnot
  · rw [List.append_assoc] at htrace'
    obtain rfl := List.append_cancel_left (htrace.symm.trans htrace')
    rcases hlast with ⟨hfailed, -, -⟩ | ⟨-, hbusy, hdone, -⟩
    · rcases List.mem_append.mp he with he | he
      · exact absurd (hbefore e he) hnot
      · obtain rfl := List.mem_singleton.mp he
        simp [BusEvent.not_pending_of_failed hfailed] at hpending
    · exact ⟨hbusy, hdone⟩

/-- Settles O17: of the ways a command can end, only the hang has a pending transaction and BUSY at 1; the stuck block's step is
read off `step`. -/
theorem unansweredTransactionLeavesTheBlockStuck : Obligations.UnansweredTransactionLeavesTheBlockStuck := by
  refine ⟨fun _ _ _ _ => exec_stuck_of_pending, fun i s t h hbusy => ?_,
    fun s hbusy hauto => ⟨fun hrst => step_of_stuck hrst hbusy hauto, fun hrst => ⟨_, step_of_rst hrst, rfl⟩⟩⟩
  rcases exec_transactions_cases h with ⟨hidle, -⟩ | ⟨before, last, htrace, hbefore, hlast⟩
  · simp [hidle] at hbusy
  · rcases hlast with ⟨-, hidle, -⟩ | ⟨hpending, -, hdone, hports⟩
    · simp [hidle] at hbusy
    · exact ⟨hdone, hports, before, last, htrace, hpending, hbefore⟩

theorem busWrite_of_err {s : State} (bytes : List Byte) (h : s.nextWriteOutcome = .err) :
    ∃ t, busWrite bytes s = .raised .transportError t := by
  simp [busWrite, h]

theorem busRead_of_err {s : State} (h : s.nextReadOutcome = .err) : ∃ t, busRead s = .raised .transportError t := by
  simp [busRead, h]

/-- Settles O45: the primitives by their outcome, and of a completed command code 1 is reported exactly when its last transaction
failed. -/
theorem transportErrorEndsTheCommand : Obligations.TransportErrorEndsTheCommand := by
  refine ⟨fun bytes s => busWrite_of_err bytes, fun s => busRead_of_err, fun s => ⟨_, rfl⟩, fun i s t h hidle => ?_⟩
  rcases exec_transactions_cases h with ⟨-, hcode, hevents⟩ | ⟨before, last, htrace, hbefore, hlast⟩
  · exact ⟨fun hone => absurd hone hcode, fun _ => hevents⟩
  · rcases hlast with ⟨hfailed, -, hcode⟩ | ⟨-, hbusy, -⟩
    · exact ⟨fun _ => ⟨before, last, htrace, hfailed, hbefore⟩, fun hne => absurd hcode hne⟩
    · simp [hidle] at hbusy

/-! ### The checks -/

/-- Settles O44: a code other than 0 and 1 is that of a failed check, which comes before every write and every transaction. -/
theorem checkErrorsChangeOnlyTheErrorRecord : Obligations.CheckErrorsChangeOnlyTheErrorRecord := by
  intro i s t h hidle hzero hone
  rcases exec_cases h with ⟨e, -, rfl⟩ | ⟨q, events, ws, rs, n, -, -, hend⟩
  · rw [State.completesError, List.append_nil]
    rfl
  · rcases hend with ⟨rfl, -⟩ | ⟨before, last, -, -, ⟨-, rfl⟩ | ⟨-, rfl⟩⟩
    · exact absurd rfl hzero
    · exact absurd rfl hone
    · exact absurd hidle (by simp)

/-- Settles O29: the input check is the first line of CALIBRATE. -/
theorem calibrateRefusesABadCurrent : Obligations.CalibrateRefusesABadCurrent := by
  intro cr s hbad
  have hrefused : ¬CurrentAccepted s.params.fpFormat cr := by
    rintro ⟨hfinite, hpositive⟩
    simp [hfinite, hpositive] at hbad
  exact exec_of_check_failed (i := .calibrate cr) (bodyCalibrate_of_refused (s := beginCommand s) hrefused)

/-- Settles O30: past the input check, the range check comes before the register writes of CALIBRATE. -/
theorem calibrateRefusesAValueBeyondSixteenBits : Obligations.CalibrateRefusesAValueBeyondSixteenBits := by
  intro cr s fmt i q hfinite hpositive hbeyond
  have hrange : calInRange (quotientOf s.params.fpFormat cr) = false := by
    rw [← Bool.not_eq_true, calInRange_iff]
    rintro ⟨hq, hle⟩
    rcases hbeyond with hinf | hlt
    · exact Bool.false_ne_true (hinf.symm.trans hq)
    · exact absurd hlt hle.not_gt
  exact exec_of_check_failed (i := .calibrate cr)
    (bodyCalibrate_of_beyond (s := beginCommand s) ⟨hfinite, hpositive⟩ hrange)

/-- Settles O37: the stale check of MEASURE is its first line, and that of READ_REG is the stale clause of its own statement. -/
theorem staleCalibrationIsReported : Obligations.StaleCalibrationIsReported := by
  intro s hstale
  have hread : ∀ a : Byte, a = 0x03#8 ∨ a = 0x04#8 →
      exec (.readReg a) s = .next (s.completesError s.regs 3#4 [] s.writeAnswers s.readAnswers) := by
    intro a ha
    obtain ⟨-, -, hreport, -⟩ := readRegisterCommand a s
    exact hreport ha hstale
  have hcal : s.regs.cal = none := by simpa [Regs.calValid] using hstale
  exact ⟨exec_of_check_failed (i := .measure) (bodyMeasure_of_none (s := beginCommand s) hcal),
    hread _ (.inl rfl), hread _ (.inr rfl)⟩

end Sys2Proof.Machine
end

