-- ==== Sys2Proof/Proofs/ResetSteps.lean ====
section
/-! The steps that run no offered command (70_reset_and_hazards.md R134 to R137): the hardware reset, the wait of an idle block, and
the automatic INIT, which is the command INIT from the reset registers. -/

namespace Sys2Proof.Machine

/-- An idle block that is offered nothing waits (R137). -/
theorem step_of_no_offer {s : State} (hrst : s.rst = false) (hbusy : s.busy = false) (hoffers : s.offers = []) :
    step s = .next (waitForCommand s) := by
  simp [step, hrst, hbusy, hoffers]

/-- Settles O15: waiting takes back the done event and writes nothing else. -/
theorem idleBlockWaitsForACommand : Obligations.IdleBlockWaitsForACommand :=
  fun _ hrst hbusy hoffers => step_of_no_offer hrst hbusy hoffers

/-- Settles O18: with `rst` asserted the step is the hardware reset, whose parts are those listed. -/
theorem hardwareResetRestoresEveryElement : Obligations.HardwareResetRestoresEveryElement :=
  fun s hrst => ⟨hardwareReset s, step_of_rst hrst, hardwareReset_regs s, hardwareReset_ports s, hardwareReset_busy s,
    hardwareReset_done s, hardwareReset_trace s, hardwareReset_rst s, hardwareReset_autoInit s⟩

/-- Settles O19: the step is INIT with the pending mark taken back, so each outcome is that of `initCommand`; INIT's writes put the
reset registers at the values they have. -/
theorem automaticInitAfterReset : Obligations.AutomaticInitAfterReset := by
  intro s ws hrst hbusy hauto _ hregs
  obtain ⟨hpack, hcompleted, hconfigFailed, hconfigPending, hcalibrationFailed, hcalibrationPending⟩ :=
    initCommand.2 (startAutoInit s) ws
  have hstart : (startAutoInit s).regs = State.reset.regs := hregs
  rw [hstart] at hpack hcompleted hconfigFailed hconfigPending hcalibrationFailed hcalibrationPending
  rw [step_of_autoInit hrst hbusy hauto]
  exact ⟨hpack, hcompleted, hconfigFailed, hcalibrationFailed, hconfigPending, hcalibrationPending, by decide⟩

end Sys2Proof.Machine
end
